-- ==== Sys2Proof/Word.lean ====
section
/-! DEFINITION. The widths of rust-chip8 CORE (00_scope.md R5, R8): every value of the machine is an unsigned integer of
one of these widths; a result is narrowed only where a rule of the spec narrows it. -/

namespace Sys2Proof

/-- XLEN: a general register, a memory byte, a timer (00_scope.md R5). -/
abbrev Byte := BitVec 8

/-- ILEN: the address register, the program counter, a stack slot, an instruction word (00_scope.md R5). -/
abbrev Word := BitVec 16

/-- A 4-bit field of the instruction word, a register number, a key index (30_encoding.md R71). -/
abbrev Nibble := BitVec 4

/-- The 12-bit field `nnn` of the instruction word (30_encoding.md R71). -/
abbrev Addr12 := BitVec 12

end Sys2Proof
end

