-- ==== Sys2Proof/Syntax.lean ====
section
/-! DEFINITION. The instructions of rust-chip8 CORE: one constructor per row of spec/opcode_table.json, in the table's order
(30_encoding.md R74). The operand types are the fields' own widths (30_encoding.md R71), so no operand can be out of range. -/

namespace Sys2Proof

/-- The 35 instructions (30_encoding.md R74). `x` and `y` are register numbers, `nn` an 8-bit, `nnn` a 12-bit and `n` a
4-bit unsigned immediate (R73). SHR and SHL carry the field `y` that R77 says is encoded and ignored. -/
inductive Instr where
  | nop                                   -- NOP
  | cls                                   -- CLS
  | ret                                   -- RET
  | jpAddr (nnn : Addr12)                 -- JP addr
  | callAddr (nnn : Addr12)               -- CALL addr
  | seVxNn (x : Nibble) (nn : Byte)       -- SE Vx,nn
  | sneVxNn (x : Nibble) (nn : Byte)      -- SNE Vx,nn
  | seVxVy (x y : Nibble)                 -- SE Vx,Vy
  | ldVxNn (x : Nibble) (nn : Byte)       -- LD Vx,nn
  | addVxNn (x : Nibble) (nn : Byte)      -- ADD Vx,nn
  | ldVxVy (x y : Nibble)                 -- LD Vx,Vy
  | orVxVy (x y : Nibble)                 -- OR Vx,Vy
  | andVxVy (x y : Nibble)                -- AND Vx,Vy
  | xorVxVy (x y : Nibble)                -- XOR Vx,Vy
  | addVxVy (x y : Nibble)                -- ADD Vx,Vy
  | subVxVy (x y : Nibble)                -- SUB Vx,Vy
  | shrVx (x y : Nibble)                  -- SHR Vx
  | subnVxVy (x y : Nibble)               -- SUBN Vx,Vy
  | shlVx (x y : Nibble)                  -- SHL Vx
  | sneVxVy (x y : Nibble)                -- SNE Vx,Vy
  | ldIAddr (nnn : Addr12)                -- LD I,addr
  | jpV0Addr (nnn : Addr12)               -- JP V0+addr
  | rndVxNn (x : Nibble) (nn : Byte)      -- RND Vx,nn
  | drwVxVyN (x y n : Nibble)             -- DRW Vx,Vy,n
  | skpVx (x : Nibble)                    -- SKP Vx
  | sknpVx (x : Nibble)                   -- SKNP Vx
  | ldVxDt (x : Nibble)                   -- LD Vx,DT
  | ldVxK (x : Nibble)                    -- LD Vx,K
  | ldDtVx (x : Nibble)                   -- LD DT,Vx
  | ldStVx (x : Nibble)                   -- LD ST,Vx
  | addIVx (x : Nibble)                   -- ADD I,Vx
  | ldFVx (x : Nibble)                    -- LD F,Vx
  | ldBVx (x : Nibble)                    -- LD B,Vx
  | ldMemVx (x : Nibble)                  -- LD [I],Vx
  | ldVxMem (x : Nibble)                  -- LD Vx,[I]
  deriving DecidableEq, Repr

end Sys2Proof
end

