-- ==== Sys2Proof/WellFormed.lean ====
section
/-! DEFINITION. Which words are instructions. A word is well formed when it matches a row of 30_encoding.md R74 by mask and
match; every other word is an unimplemented opcode (R76). An `Instr` needs no check of its own: its operands' types have
the widths of their fields (30_encoding.md R71), so every `Instr` is well formed. -/

namespace Sys2Proof

/-- A row of 30_encoding.md R74: `w` is this instruction when `w` AND `mask` is `pattern`. -/
structure OpcodeRow where
  mnemonic : String
  mask : Word
  pattern : Word
  deriving DecidableEq, Repr

/-- Does the word match the row (30_encoding.md R74)? -/
def OpcodeRow.covers (r : OpcodeRow) (w : Word) : Bool := w &&& r.mask == r.pattern

/-- The row of 30_encoding.md R74 an instruction belongs to, its mnemonic as spec/opcode_table.json spells it. -/
def rowOf : Instr → OpcodeRow
  | .nop => ⟨"NOP", 0xFFFF, 0x0000⟩
  | .cls => ⟨"CLS", 0xFFFF, 0x00E0⟩
  | .ret => ⟨"RET", 0xFFFF, 0x00EE⟩
  | .jpAddr _ => ⟨"JP_addr", 0xF000, 0x1000⟩
  | .callAddr _ => ⟨"CALL_addr", 0xF000, 0x2000⟩
  | .seVxNn _ _ => ⟨"SE_Vx_nn", 0xF000, 0x3000⟩
  | .sneVxNn _ _ => ⟨"SNE_Vx_nn", 0xF000, 0x4000⟩
  | .seVxVy _ _ => ⟨"SE_Vx_Vy", 0xF00F, 0x5000⟩
  | .ldVxNn _ _ => ⟨"LD_Vx_nn", 0xF000, 0x6000⟩
  | .addVxNn _ _ => ⟨"ADD_Vx_nn", 0xF000, 0x7000⟩
  | .ldVxVy _ _ => ⟨"LD_Vx_Vy", 0xF00F, 0x8000⟩
  | .orVxVy _ _ => ⟨"OR_Vx_Vy", 0xF00F, 0x8001⟩
  | .andVxVy _ _ => ⟨"AND_Vx_Vy", 0xF00F, 0x8002⟩
  | .xorVxVy _ _ => ⟨"XOR_Vx_Vy", 0xF00F, 0x8003⟩
  | .addVxVy _ _ => ⟨"ADD_Vx_Vy", 0xF00F, 0x8004⟩
  | .subVxVy _ _ => ⟨"SUB_Vx_Vy", 0xF00F, 0x8005⟩
  | .shrVx _ _ => ⟨"SHR_Vx", 0xF00F, 0x8006⟩
  | .subnVxVy _ _ => ⟨"SUBN_Vx_Vy", 0xF00F, 0x8007⟩
  | .shlVx _ _ => ⟨"SHL_Vx", 0xF00F, 0x800E⟩
  | .sneVxVy _ _ => ⟨"SNE_Vx_Vy", 0xF00F, 0x9000⟩
  | .ldIAddr _ => ⟨"LD_I_addr", 0xF000, 0xA000⟩
  | .jpV0Addr _ => ⟨"JP_V0+addr", 0xF000, 0xB000⟩
  | .rndVxNn _ _ => ⟨"RND_Vx_nn", 0xF000, 0xC000⟩
  | .drwVxVyN _ _ _ => ⟨"DRW_Vx_Vy_n", 0xF000, 0xD000⟩
  | .skpVx _ => ⟨"SKP_Vx", 0xF0FF, 0xE09E⟩
  | .sknpVx _ => ⟨"SKNP_Vx", 0xF0FF, 0xE0A1⟩
  | .ldVxDt _ => ⟨"LD_Vx_DT", 0xF0FF, 0xF007⟩
  | .ldVxK _ => ⟨"LD_Vx_K", 0xF0FF, 0xF00A⟩
  | .ldDtVx _ => ⟨"LD_DT_Vx", 0xF0FF, 0xF015⟩
  | .ldStVx _ => ⟨"LD_ST_Vx", 0xF0FF, 0xF018⟩
  | .addIVx _ => ⟨"ADD_I_Vx", 0xF0FF, 0xF01E⟩
  | .ldFVx _ => ⟨"LD_F_Vx", 0xF0FF, 0xF029⟩
  | .ldBVx _ => ⟨"LD_B_Vx", 0xF0FF, 0xF033⟩
  | .ldMemVx _ => ⟨"LD__I__Vx", 0xF0FF, 0xF055⟩
  | .ldVxMem _ => ⟨"LD_Vx__I", 0xF0FF, 0xF065⟩

/-- The 35 rows of 30_encoding.md R74, in the table's order (one instruction of each row stands for it). -/
def opcodeRows : List OpcodeRow :=
  (([.nop, .cls, .ret, .jpAddr 0, .callAddr 0, .seVxNn 0 0, .sneVxNn 0 0] ++
    [.seVxVy 0 0, .ldVxNn 0 0, .addVxNn 0 0, .ldVxVy 0 0, .orVxVy 0 0, .andVxVy 0 0, .xorVxVy 0 0] ++
    [.addVxVy 0 0, .subVxVy 0 0, .shrVx 0 0, .subnVxVy 0 0, .shlVx 0 0, .sneVxVy 0 0, .ldIAddr 0] ++
    [.jpV0Addr 0, .rndVxNn 0 0, .drwVxVyN 0 0 0, .skpVx 0, .sknpVx 0, .ldVxDt 0, .ldVxK 0] ++
    [.ldDtVx 0, .ldStVx 0, .addIVx 0, .ldFVx 0, .ldBVx 0, .ldMemVx 0, .ldVxMem 0] : List Instr)).map rowOf

/-- A word is well formed when it is an instruction word: it matches some row (30_encoding.md R74, R76). -/
def wordWellFormed (w : Word) : Bool := opcodeRows.any fun r => r.covers w

end Sys2Proof
end

