-- ==== Sys2Proof/Decode.lean ====
section
/-! DEFINITION. The Decoder's split of the instruction word into fields, the map from words to instructions and its inverse
(30_encoding.md R70 to R82, 40_step_cycle.md R92). Decoding depends on no state (R79). -/

namespace Sys2Proof

/-! ## Fields (30_encoding.md R71) -/

def nibble1 (w : Word) : Nibble := w.extractLsb' 12 4
def nibble2 (w : Word) : Nibble := w.extractLsb' 8 4
def nibble3 (w : Word) : Nibble := w.extractLsb' 4 4
def nibble4 (w : Word) : Nibble := w.extractLsb' 0 4

/-- `nn = w[7:0]`. -/
def fieldNn (w : Word) : Byte := w.extractLsb' 0 8

/-- `nnn = w[11:0]`. -/
def fieldNnn (w : Word) : Addr12 := w.extractLsb' 0 12

/-! ## Decoding -/

/-- Why bytes are no instruction. -/
inductive DecodeError where
  /-- The word matches no row of 30_encoding.md R74; it is carried, as R76 says. -/
  | unimplementedOpcode (w : Word)
  /-- Fewer than two bytes were given. -/
  | tooShort
  deriving DecidableEq, Repr

/-- The instruction of a word (30_encoding.md R74, one arm per first nibble), or UnimplementedOpcode with the raw word
(R76). -/
def decodeWord (w : Word) : Except DecodeError Instr :=
  match nibble1 w with
  | 0x0#4 =>
    if w = 0x0000 then .ok .nop
    else if w = 0x00E0 then .ok .cls
    else if w = 0x00EE then .ok .ret
    else .error (.unimplementedOpcode w)
  | 0x1#4 => .ok (.jpAddr (fieldNnn w))
  | 0x2#4 => .ok (.callAddr (fieldNnn w))
  | 0x3#4 => .ok (.seVxNn (nibble2 w) (fieldNn w))
  | 0x4#4 => .ok (.sneVxNn (nibble2 w) (fieldNn w))
  | 0x5#4 =>
    if nibble4 w = 0x0 then .ok (.seVxVy (nibble2 w) (nibble3 w)) else .error (.unimplementedOpcode w)
  | 0x6#4 => .ok (.ldVxNn (nibble2 w) (fieldNn w))
  | 0x7#4 => .ok (.addVxNn (nibble2 w) (fieldNn w))
  | 0x8#4 =>
    match nibble4 w with
    | 0x0#4 => .ok (.ldVxVy (nibble2 w) (nibble3 w))
    | 0x1#4 => .ok (.orVxVy (nibble2 w) (nibble3 w))
    | 0x2#4 => .ok (.andVxVy (nibble2 w) (nibble3 w))
    | 0x3#4 => .ok (.xorVxVy (nibble2 w) (nibble3 w))
    | 0x4#4 => .ok (.addVxVy (nibble2 w) (nibble3 w))
    | 0x5#4 => .ok (.subVxVy (nibble2 w) (nibble3 w))
    | 0x6#4 => .ok (.shrVx (nibble2 w) (nibble3 w))
    | 0x7#4 => .ok (.subnVxVy (nibble2 w) (nibble3 w))
    | 0xE#4 => .ok (.shlVx (nibble2 w) (nibble3 w))
    | _ => .error (.unimplementedOpcode w)
  | 0x9#4 =>
    if nibble4 w = 0x0 then .ok (.sneVxVy (nibble2 w) (nibble3 w)) else .error (.unimplementedOpcode w)
  | 0xA#4 => .ok (.ldIAddr (fieldNnn w))
  | 0xB#4 => .ok (.jpV0Addr (fieldNnn w))
  | 0xC#4 => .ok (.rndVxNn (nibble2 w) (fieldNn w))
  | 0xD#4 => .ok (.drwVxVyN (nibble2 w) (nibble3 w) (nibble4 w))
  | 0xE#4 =>
    match fieldNn w with
    | 0x9E#8 => .ok (.skpVx (nibble2 w))
    | 0xA1#8 => .ok (.sknpVx (nibble2 w))
    | _ => .error (.unimplementedOpcode w)
  | 0xF#4 =>
    match fieldNn w with
    | 0x07#8 => .ok (.ldVxDt (nibble2 w))
    | 0x0A#8 => .ok (.ldVxK (nibble2 w))
    | 0x15#8 => .ok (.ldDtVx (nibble2 w))
    | 0x18#8 => .ok (.ldStVx (nibble2 w))
    | 0x1E#8 => .ok (.addIVx (nibble2 w))
    | 0x29#8 => .ok (.ldFVx (nibble2 w))
    | 0x33#8 => .ok (.ldBVx (nibble2 w))
    | 0x55#8 => .ok (.ldMemVx (nibble2 w))
    | 0x65#8 => .ok (.ldVxMem (nibble2 w))
    | _ => .error (.unimplementedOpcode w)
  | _ => .error (.unimplementedOpcode w)   -- no 4-bit value is left for this arm

/-- The word of two bytes in memory: the first byte is the high byte (20_memory.md R53, 30_encoding.md R70). -/
def wordOfBytes (hi lo : Byte) : Word := hi ++ lo

/-- The byte at the lower address, the high byte of the word (20_memory.md R53). -/
def highByte (w : Word) : Byte := w.extractLsb' 8 8

/-- The byte at the higher address, the low byte of the word (20_memory.md R53). -/
def lowByte (w : Word) : Byte := w.extractLsb' 0 8

/-- Decoding bytes: the instruction of the first two and the bytes after them (30_encoding.md R70: one length only). -/
def decode : List Byte → Except DecodeError (Instr × List Byte)
  | hi :: lo :: rest =>
    match decodeWord (wordOfBytes hi lo) with
    | .ok i => .ok (i, rest)
    | .error e => .error e
  | _ => .error .tooShort

/-! ## Encoding (30_encoding.md R82), by the formats of R72 -/

/-- Format NNN. -/
def wordNNN (op : Nibble) (nnn : Addr12) : Word := op ++ nnn

/-- Format XNN; also format X, whose low byte is the sub-opcode. -/
def wordXNN (op x : Nibble) (nn : Byte) : Word := op ++ x ++ nn

/-- Format XY, whose last nibble is the sub-opcode, or `n` for DRW. -/
def wordXYN (op x y n : Nibble) : Word := op ++ x ++ y ++ n

/-- The word of an instruction (30_encoding.md R82). -/
def encode : Instr → Word
  | .nop => 0x0000
  | .cls => 0x00E0
  | .ret => 0x00EE
  | .jpAddr nnn => wordNNN 0x1 nnn
  | .callAddr nnn => wordNNN 0x2 nnn
  | .seVxNn x nn => wordXNN 0x3 x nn
  | .sneVxNn x nn => wordXNN 0x4 x nn
  | .seVxVy x y => wordXYN 0x5 x y 0x0
  | .ldVxNn x nn => wordXNN 0x6 x nn
  | .addVxNn x nn => wordXNN 0x7 x nn
  | .ldVxVy x y => wordXYN 0x8 x y 0x0
  | .orVxVy x y => wordXYN 0x8 x y 0x1
  | .andVxVy x y => wordXYN 0x8 x y 0x2
  | .xorVxVy x y => wordXYN 0x8 x y 0x3
  | .addVxVy x y => wordXYN 0x8 x y 0x4
  | .subVxVy x y => wordXYN 0x8 x y 0x5
  | .shrVx x y => wordXYN 0x8 x y 0x6
  | .subnVxVy x y => wordXYN 0x8 x y 0x7
  | .shlVx x y => wordXYN 0x8 x y 0xE
  | .sneVxVy x y => wordXYN 0x9 x y 0x0
  | .ldIAddr nnn => wordNNN 0xA nnn
  | .jpV0Addr nnn => wordNNN 0xB nnn
  | .rndVxNn x nn => wordXNN 0xC x nn
  | .drwVxVyN x y n => wordXYN 0xD x y n
  | .skpVx x => wordXNN 0xE x 0x9E
  | .sknpVx x => wordXNN 0xE x 0xA1
  | .ldVxDt x => wordXNN 0xF x 0x07
  | .ldVxK x => wordXNN 0xF x 0x0A
  | .ldDtVx x => wordXNN 0xF x 0x15
  | .ldStVx x => wordXNN 0xF x 0x18
  | .addIVx x => wordXNN 0xF x 0x1E
  | .ldFVx x => wordXNN 0xF x 0x29
  | .ldBVx x => wordXNN 0xF x 0x33
  | .ldMemVx x => wordXNN 0xF x 0x55
  | .ldVxMem x => wordXNN 0xF x 0x65

/-- The two bytes of an instruction, in the order of their addresses. -/
def encodeBytes (i : Instr) : List Byte := [highByte (encode i), lowByte (encode i)]

/-! ## For the host's check of the opcode table -/

/-- The instruction of a row's word. A row has 16 bits (30_encoding.md R70) and bit 0 of `w` is the word's least significant
bit (00_scope.md R7); bits from `nbits` up are 0. The word is laid out as memory holds it, high byte first. -/
def decodeTableWord (nbits w : Nat) : Option Instr :=
  let word : Word := BitVec.ofNat 16 (w % 2 ^ nbits)
  match decode [highByte word, lowByte word] with
  | .ok (i, _) => some i
  | .error _ => none

end Sys2Proof
end

