-- ==== Sys2Proof/Config.lean ====
section
/-! DEFINITION. The open parameters of 00_scope.md R6 and the one free value of the machine. Which values the machine has at
reset is said in Machine/Defaults.lean; every claim about all states holds for every value of every parameter. -/

namespace Sys2Proof

/-- UNIMPL_POLICY (00_scope.md R6, 92_eei_decisions.md D3): does an UnimplementedOpcode error latch the fault? `proceed` is
the spec's `continue` (a word Lean reserves). -/
inductive UnimplPolicy where
  | halt
  | proceed
  deriving DecidableEq, Repr

/-- KEY_INDEX_POLICY (00_scope.md R6, 92_eei_decisions.md D14): what SKP and SKNP do when `V[x]` is above 15. -/
inductive KeyIndexPolicy where
  | fault
  | mask4
  deriving DecidableEq, Repr

/-- VF_WRITE_ORDER (00_scope.md R6, 92_eei_decisions.md D8): which write survives when a flag-writing instruction names
`V[15]` as its destination. -/
inductive VfWriteOrder where
  | resultLast
  | flagLast
  deriving DecidableEq, Repr

/-- The open parameters of 00_scope.md R6, fixed for a machine (10_state.md R36). -/
structure Params where
  /-- FONT: the 80 bytes RESET copies to 0x000..0x04F (70_reset_and_hazards.md R202). -/
  font : Vector Byte 80
  unimplPolicy : UnimplPolicy
  keyIndexPolicy : KeyIndexPolicy
  /-- SPRITE_MSB_LEFT: is bit 7 of a sprite byte its leftmost pixel (44_display.md R152)? -/
  spriteMsbLeft : Bool
  vfWriteOrder : VfWriteOrder
  deriving DecidableEq, Repr

/-- The random bytes of RND, a FREE VALUE: the k-th byte drawn is `Config.draw8 k`, under no law (42_load_alu.md R131,
10_state.md R33, 93_implementation_defined.md U1). It has no body: nothing can evaluate it or prove a value of it. -/
opaque Config.draw8 : Nat → Byte

end Sys2Proof
end

