-- ==== Sys2Proof/Machine/Defaults.lean ====
section
/-! DEFINITION. The default values of the open parameters (00_scope.md R6, 95_test_vectors.md "Conventions"). -/

namespace Sys2Proof.Machine

/-- PRESUMED (log 8): the conventional font of 70_reset_and_hazards.md R202, 16 glyphs of 5 bytes, glyph `d` at `5 * d`. -/
def conventionalFont : Vector Byte 80 := #v[
  0xF0, 0x90, 0x90, 0x90, 0xF0,   -- 0
  0x20, 0x60, 0x20, 0x20, 0x70,   -- 1
  0xF0, 0x10, 0xF0, 0x80, 0xF0,   -- 2
  0xF0, 0x10, 0xF0, 0x10, 0xF0,   -- 3
  0x90, 0x90, 0xF0, 0x10, 0x10,   -- 4
  0xF0, 0x80, 0xF0, 0x10, 0xF0,   -- 5
  0xF0, 0x80, 0xF0, 0x90, 0xF0,   -- 6
  0xF0, 0x10, 0x20, 0x40, 0x40,   -- 7
  0xF0, 0x90, 0xF0, 0x90, 0xF0,   -- 8
  0xF0, 0x90, 0xF0, 0x10, 0xF0,   -- 9
  0xF0, 0x90, 0xF0, 0x90, 0x90,   -- A
  0xE0, 0x90, 0xE0, 0x90, 0xE0,   -- B
  0xF0, 0x80, 0x80, 0x80, 0xF0,   -- C
  0xE0, 0x90, 0x90, 0x90, 0xE0,   -- D
  0xF0, 0x80, 0xF0, 0x80, 0xF0,   -- E
  0xF0, 0x80, 0xF0, 0x80, 0x80]   -- F

/-- DESIGN CHOICE (log 2, log 4 to log 8): the defaults of 00_scope.md R6. -/
def defaultParams : Params where
  font := conventionalFont
  unimplPolicy := .halt
  keyIndexPolicy := .fault
  spriteMsbLeft := true
  vfWriteOrder := .resultLast

end Sys2Proof.Machine
end

