-- ==== Sys2Proof/Machine/State.lean ====
section
/-! DEFINITION. The state of rust-chip8 CORE (10_state.md R20), the reasons a step can stop, and the state after RESET
(10_state.md R35, 70_reset_and_hazards.md R200). -/

namespace Sys2Proof.Machine

/-- The error kinds of 60_exceptions.md R170. `none` of the table is `Option.none` of `State.fault`. -/
inductive ErrorKind where
  | memoryOutOfBounds
  | stackOverflow
  | stackUnderflow
  | unimplementedOpcode
  | romTooLarge
  | invalidKeyIndex
  deriving DecidableEq, Repr

/-- Why a step stops. -/
inductive Fault where
  /-- Raised by `step`, never by an instruction: the machine halted at an earlier error, so this STEP changes nothing and
  returns the latched error and its word (40_step_cycle.md R90 phase 1, 60_exceptions.md R182; log 1). Safe. -/
  | halted (kind : ErrorKind) (word : Word)
  deriving DecidableEq, Repr

/-- Why an instruction has no meaning. -/
inductive Refusal where
  /-- Raised by an arm of `exec` for an instruction the model gives no meaning; no arm does so. Safe. -/
  | notModelled (mnemonic : String)
  deriving DecidableEq, Repr

/-- Memory as the bytes that differ from their reset contents, in rising order of address (log 25). -/
abbrev Memory := List Host.Cell

/-- The Display Buffer: 32 rows of 64 columns, `px[row][col]` (10_state.md R28). -/
abbrev Display := Vector (Vector Bool 64) 32

/-- The state tuple of 10_state.md R20, and two fields of the model's own: `params` and `draws`. -/
structure State where
  /-- Memory (R27); what an unlisted address reads as is `Memory.resetByte` of the font. -/
  mem : Memory
  /-- The general registers `V[0]` to `V[15]` (R21); `V[15]` is the flag register VF (R22). -/
  v : Vector Byte 16
  /-- The address register `I` (R23). -/
  i : Word
  /-- The program counter (R24). -/
  pc : Word
  /-- The call stack (R26). -/
  stack : Vector Word 16
  /-- The number of used stack slots (R26). -/
  sp : Fin 17
  /-- The Display Buffer (R28). -/
  px : Display
  /-- The Input Latch (R29). -/
  key : Vector Bool 16
  /-- The delay timer (R30). -/
  dt : Byte
  /-- The sound timer (R30). -/
  st : Byte
  /-- Is a key wait in progress (R31)? -/
  waiting : Bool
  /-- The destination register of the key wait (R31). -/
  waitX : Nibble
  /-- The key whose press the wait has recorded (R31). -/
  keyEvent : Option Nibble
  /-- The latched error (R32). -/
  fault : Option ErrorKind
  /-- The instruction word of a latched UnimplementedOpcode, 0 for the other kinds (R32). -/
  faultWord : Word
  /-- The model's own: the open parameters of 00_scope.md R6, which nothing changes (10_state.md R36; log 2). -/
  params : Params
  /-- The model's own: how many random bytes have been drawn (42_load_alu.md R131; log 3). -/
  draws : Nat
  deriving DecidableEq, Repr

/-- The three outcomes of a step. -/
abbrev StepOutcome := Host.Outcome State Fault Refusal

/-- The state after RESET of a machine with parameters `p` that has drawn `draws` random bytes (70_reset_and_hazards.md
R200; memory with nothing listed reads as the font and zeros). -/
def State.resetWith (p : Params) (draws : Nat) : State where
  mem := []
  v := Vector.replicate 16 0x00
  i := 0x0000
  pc := 0x0200
  stack := Vector.replicate 16 0x0000
  sp := 0
  px := Vector.replicate 32 (Vector.replicate 64 false)
  key := Vector.replicate 16 false
  dt := 0x00
  st := 0x00
  waiting := false
  waitX := 0x0
  keyEvent := none
  fault := none
  faultWord := 0x0000
  params := p
  draws := draws

/-- The machine right after RESET (10_state.md R35), with the default parameters (log 2). -/
def State.reset : State := State.resetWith defaultParams 0

end Sys2Proof.Machine
end

