-- ==== Sys2Proof/Machine/Memory.lean ====
section
/-! DEFINITION. Memory: 4096 bytes, all ordinary read-write cells (20_memory.md R50 to R52, R58). It is kept as the list of
the bytes that differ from their reset contents, addresses strictly rising, so equal memories are equal lists. -/

namespace Sys2Proof.Machine

/-- MEM_SIZE (00_scope.md R5). -/
def memSize : Nat := 4096

/-- What an address holds after RESET, and so what an unlisted address reads as: the font at 0x000..0x04F, 0x00 elsewhere
(20_memory.md R51, 10_state.md R35). -/
def Memory.resetByte (font : Vector Byte 80) (a : Nat) : Byte :=
  if h : a < 80 then font[a] else 0x00

/-- The byte at an address (20_memory.md R52, MemRead). -/
def Memory.read (font : Vector Byte 80) : Memory → Nat → Byte
  | [], a => Memory.resetByte font a
  | (a', b) :: m, a => if a = a' then b else Memory.read font m a

/-- Lists `b` at `a`, in place. -/
def Memory.insert (a : Nat) (b : Byte) : Memory → Memory
  | [] => [(a, b)]
  | (a', b') :: m =>
    if a < a' then (a, b) :: (a', b') :: m
    else if a = a' then (a, b) :: m
    else (a', b') :: Memory.insert a b m

/-- Unlists `a`. -/
def Memory.remove (a : Nat) : Memory → Memory
  | [] => []
  | (a', b') :: m => if a = a' then m else (a', b') :: Memory.remove a m

/-- Stores a byte (20_memory.md R52, MemWrite); storing the reset content unlists the address. -/
def Memory.write (font : Vector Byte 80) (m : Memory) (a : Nat) (b : Byte) : Memory :=
  if b = Memory.resetByte font a then Memory.remove a m else Memory.insert a b m

/-- The canonical form: addresses strictly rise from `lo` and stay in Memory, and no entry equals its reset content. -/
def Memory.wfFrom (font : Vector Byte 80) : Nat → Memory → Bool
  | _, [] => true
  | lo, (a, b) :: m =>
    decide (lo ≤ a) && decide (a < memSize) && decide (b ≠ Memory.resetByte font a) && Memory.wfFrom font (a + 1) m

/-- Is the memory in its canonical form? -/
def Memory.wf (font : Vector Byte 80) (m : Memory) : Bool := Memory.wfFrom font 0 m

/-- The byte at an address, in a state. -/
def State.readByte (s : State) (a : Nat) : Byte := Memory.read s.params.font s.mem a

/-- Stores a byte, in a state. -/
def State.writeByte (s : State) (a : Nat) (b : Byte) : State :=
  { s with mem := Memory.write s.params.font s.mem a b }

/-- Stores bytes at successive addresses, in order. -/
def State.writeBytes (s : State) (a : Nat) : List Byte → State
  | [] => s
  | b :: bs => State.writeBytes (s.writeByte a b) (a + 1) bs

/-- The `n` bytes from an address up. -/
def State.readBytes (s : State) (a : Nat) : Nat → List Byte
  | 0 => []
  | n + 1 => s.readByte a :: State.readBytes s (a + 1) n

/-- Do the `n` addresses from `a` up all lie in Memory? An empty range does (20_memory.md R57). -/
def rangeInMemory (a n : Nat) : Bool := decide (n = 0 ∨ a + n ≤ memSize)

end Sys2Proof.Machine
end

