-- ==== Sys2Proof/Machine/Ops.lean ====
section
/-! DEFINITION. The named operations on the state that the instructions and the step share: registers, program counter, call
stack, the key wait, the random byte, and the one way an error is raised. -/

namespace Sys2Proof.Machine

/-! ## Registers -/

/-- Read of `V[x]` (00_scope.md R9). -/
def State.getV (s : State) (x : Nibble) : Byte := s.v[x.toNat]'x.isLt

/-- Write of `V[x]` (00_scope.md R9). -/
def State.setV (s : State) (x : Nibble) (b : Byte) : State := { s with v := s.v.set x.toNat b x.isLt }

def State.setI (s : State) (w : Word) : State := { s with i := w }

def State.setPc (s : State) (w : Word) : State := { s with pc := w }

def State.setDt (s : State) (b : Byte) : State := { s with dt := b }

def State.setSt (s : State) (b : Byte) : State := { s with st := b }

/-- The program counter past the next two bytes: the fetch's advance and a taken skip (10_state.md R24). -/
def State.advancePc (s : State) : State := s.setPc (s.pc + 2)

/-- A skip over exactly one instruction when the condition holds (41_control.md R109). -/
def State.skipIf (s : State) (c : Bool) : State := if c then s.advancePc else s

/-! ## Errors (60_exceptions.md R179: no control transfer, no saved pc; the latch is all there is) -/

/-- The numeric code of a kind (60_exceptions.md R170, the rows 1 to 6). -/
def ErrorKind.code : ErrorKind → Nat
  | .memoryOutOfBounds => 1
  | .stackOverflow => 2
  | .stackUnderflow => 3
  | .unimplementedOpcode => 4
  | .romTooLarge => 5
  | .invalidKeyIndex => 6

/-- The numeric code of an error that may be none (60_exceptions.md R170, the whole table): 0 is no error. -/
def errorCode : Option ErrorKind → Nat
  | none => 0
  | some kind => kind.code

/-- The numeric code `fault` holds (60_exceptions.md R170): 0 while nothing is latched. -/
def State.faultCode (s : State) : Nat := errorCode s.fault

/-- Does an error of this kind latch `fault` (40_step_cycle.md R94, 60_exceptions.md R170)? -/
def latches (p : Params) : ErrorKind → Bool
  | .memoryOutOfBounds | .stackOverflow | .stackUnderflow | .invalidKeyIndex => true
  | .unimplementedOpcode =>
    match p.unimplPolicy with
    | .halt => true
    | .proceed => false
  | .romTooLarge => false

/-- Raising an error in a STEP (40_step_cycle.md R94): the latch, and nothing else; `pc` stays as the fetch left it (R95). -/
def raiseError (kind : ErrorKind) (word : Word) (s : State) : State :=
  if latches s.params kind then { s with fault := some kind, faultWord := word } else s

/-- An instruction's own error: the STEP ends with it and none of the instruction's writes happens (40_step_cycle.md R93). -/
def raise (kind : ErrorKind) (s : State) : StepOutcome := .next (raiseError kind 0 s)

/-! ## The fetch (40_step_cycle.md R91) -/

/-- PC_FETCH_MAX (00_scope.md R5). -/
def pcFetchMax : Nat := 4094

/-- MemRead(pc, 2): the big-endian word at the program counter (20_memory.md R53). -/
def State.wordAtPc (s : State) : Word := wordOfBytes (s.readByte s.pc.toNat) (s.readByte (s.pc.toNat + 1))

/-- The fetch: the word at `pc` and the state with `pc` advanced by 2, or nothing when `pc` is above 4094. -/
def fetch (s : State) : Option (Word × State) :=
  if s.pc.toNat ≤ pcFetchMax then some (s.wordAtPc, s.advancePc) else none

/-! ## The call stack (10_state.md R26) -/

/-- Pushes a return address, or nothing when all 16 slots are used. -/
def State.push (s : State) (w : Word) : Option State :=
  if h : s.sp.val < 16 then
    some { s with stack := s.stack.set s.sp.val w h, sp := ⟨s.sp.val + 1, by omega⟩ }
  else none

/-- Pops the top slot, which keeps its value, or nothing when no slot is used. -/
def State.pop (s : State) : Option (Word × State) :=
  if h : s.sp.val = 0 then none
  else some (s.stack[s.sp.val - 1], { s with sp := ⟨s.sp.val - 1, by omega⟩ })

/-! ## The random byte (42_load_alu.md R131) -/

/-- draw8(): a fresh free value; the counter moves on so that no two draws are related. -/
def State.draw (s : State) : Byte × State := (Config.draw8 s.draws, { s with draws := s.draws + 1 })

/-! ## The key wait (45_keypad_timers.md R163, 40_step_cycle.md R96) -/

/-- Entering the wait: `pc` goes back to the address of the instruction. -/
def State.beginKeyWait (s : State) (x : Nibble) : State :=
  { s with waiting := true, waitX := x, keyEvent := none, pc := s.pc - 2 }

/-- A STEP during the wait: nothing until a press is recorded, then the completion. -/
def State.keyWaitStep (s : State) : State :=
  match s.keyEvent with
  | none => s
  | some k => { (s.setV s.waitX (k.setWidth 8)).advancePc with waiting := false, keyEvent := none }

end Sys2Proof.Machine
end

