-- ==== Sys2Proof/Machine/Flags.lean ====
section
/-! DEFINITION. The flags: `V[15]` is the only flag register (10_state.md R22). The flag values of 42_load_alu.md R132 and the
order of the flag's and the result's writes (R133). -/

namespace Sys2Proof.Machine

/-- VF, the register a flag is written to (00_scope.md R9). -/
def vf : Nibble := 15

/-- A flag as the byte written to VF. -/
def flagByte (c : Bool) : Byte := if c then 1 else 0

/-- ADD: 1 when the exact sum is at least 256 (42_load_alu.md R126). -/
def carryFlag (vx vy : Byte) : Byte := flagByte (decide (vx.toNat + vy.toNat ≥ 256))

/-- SUB and SUBN: 1 when `minuend - subtrahend` needs no borrow (42_load_alu.md R127, R129). -/
def noBorrowFlag (minuend subtrahend : Byte) : Byte := flagByte (decide (minuend.toNat ≥ subtrahend.toNat))

/-- SHR: the bit shifted out on the right (42_load_alu.md R128). -/
def rightBitFlag (vx : Byte) : Byte := vx &&& 1

/-- SHL: the bit shifted out on the left (42_load_alu.md R130). -/
def leftBitFlag (vx : Byte) : Byte := (vx >>> 7) &&& 1

/-- The two writes of a flag-writing instruction, both from values read before (42_load_alu.md R133): the flag, then the
result; under `flagLast` the other way round. The order shows only when `x` is 15. -/
def State.setFlagAndResult (s : State) (x : Nibble) (flag result : Byte) : State :=
  match s.params.vfWriteOrder with
  | .resultLast => (s.setV vf flag).setV x result
  | .flagLast => (s.setV x result).setV vf flag

end Sys2Proof.Machine
end

