-- ==== Sys2Proof/Machine/Operands.lean ====
section
/-! DEFINITION. The operand forms (30_encoding.md R73, 43_index_memory.md R146): immediates, the one addressing mode, the
glyph address, the decimal digits, the register block, the key index and the screen position. -/

namespace Sys2Proof.Machine

/-- `zext_16(nnn)`: an address immediate, never sign-extended or scaled (30_encoding.md R73). -/
def addrImm (nnn : Addr12) : Word := nnn.setWidth 16

/-- `zext_16(v)` of a register (00_scope.md R8). -/
def wordOfByte (b : Byte) : Word := b.setWidth 16

/-- The base of every data access: the full 16-bit `I` as an integer, not reduced (20_memory.md R56). -/
def State.dataAddr (s : State) : Nat := s.i.toNat

/-- The address of the glyph of a register's low nibble; the font base is 0 (43_index_memory.md R142, 20_memory.md R51). -/
def glyphAddr (b : Byte) : Word := BitVec.ofNat 16 (0x000 + 5 * (b &&& 0x0F).toNat)

/-- The decimal digits of a register: hundreds, tens, ones (43_index_memory.md R143). -/
def bcdDigits (b : Byte) : List Byte :=
  [BitVec.ofNat 8 (b.toNat / 100), BitVec.ofNat 8 (b.toNat / 10 % 10), BitVec.ofNat 8 (b.toNat % 10)]

/-- How many registers a block transfer moves: `V[0]` to `V[x]` inclusive (43_index_memory.md R144, R145). -/
def blockSize (x : Nibble) : Nat := x.toNat + 1

/-- The values of `V[0]` to `V[x]`, in order (43_index_memory.md R144). -/
def State.blockRegs (s : State) (x : Nibble) : List Byte := s.v.toList.take (blockSize x)

/-- `V[0]` to `V[x]` loaded from the bytes at `a` up; the registers above keep their values (43_index_memory.md R145). -/
def State.loadBlock (s : State) (x : Nibble) (a : Nat) : State :=
  { s with v := Vector.ofFn fun k : Fin 16 => if k.val ≤ x.toNat then s.readByte (a + k.val) else s.v[k] }

/-- The key SKP and SKNP test, from the value of `V[x]`: nothing when it is above 15 and the policy is `fault`
(45_keypad_timers.md R166). -/
def keyIndex (p : Params) (b : Byte) : Option Nibble :=
  match p.keyIndexPolicy with
  | .fault => if b.toNat ≤ 15 then some (b.setWidth 4) else none
  | .mask4 => some (b.setWidth 4)

/-- A cell of the Input Latch (10_state.md R29). -/
def State.keyPressed (s : State) (k : Nibble) : Bool := s.key[k.toNat]'k.isLt

/-- The column of a sprite's left edge: `vx mod 64` (44_display.md R151). -/
def spriteCol (vx : Byte) : Nat := vx.toNat % 64

/-- The row of a sprite's top edge: `vy mod 32` (44_display.md R151). -/
def spriteRow (vy : Byte) : Nat := vy.toNat % 32

end Sys2Proof.Machine
end

