-- ==== Sys2Proof/Machine/Alu.lean ====
section
/-! DEFINITION. The register load, arithmetic, logic, shift and random instructions (42_load_alu.md R120 to R133). None raises an
error or changes `pc` beyond the fetch's advance. -/

namespace Sys2Proof.Machine

/-- LD Vx,nn (42_load_alu.md R120). -/
def execLdVxNn (x : Nibble) (nn : Byte) (s : State) : StepOutcome := .next (s.setV x nn)

/-- ADD Vx,nn (42_load_alu.md R121): no flag. -/
def execAddVxNn (x : Nibble) (nn : Byte) (s : State) : StepOutcome := .next (s.setV x (s.getV x + nn))

/-- LD Vx,Vy (42_load_alu.md R122). -/
def execLdVxVy (x y : Nibble) (s : State) : StepOutcome := .next (s.setV x (s.getV y))

/-- OR Vx,Vy (42_load_alu.md R123): no flag. -/
def execOrVxVy (x y : Nibble) (s : State) : StepOutcome := .next (s.setV x (s.getV x ||| s.getV y))

/-- AND Vx,Vy (42_load_alu.md R124): no flag. -/
def execAndVxVy (x y : Nibble) (s : State) : StepOutcome := .next (s.setV x (s.getV x &&& s.getV y))

/-- XOR Vx,Vy (42_load_alu.md R125): no flag. -/
def execXorVxVy (x y : Nibble) (s : State) : StepOutcome := .next (s.setV x (s.getV x ^^^ s.getV y))

/-- ADD Vx,Vy (42_load_alu.md R126). -/
def execAddVxVy (x y : Nibble) (s : State) : StepOutcome :=
  .next (s.setFlagAndResult x (carryFlag (s.getV x) (s.getV y)) (s.getV x + s.getV y))

/-- SUB Vx,Vy (42_load_alu.md R127). -/
def execSubVxVy (x y : Nibble) (s : State) : StepOutcome :=
  .next (s.setFlagAndResult x (noBorrowFlag (s.getV x) (s.getV y)) (s.getV x - s.getV y))

/-- SHR Vx (42_load_alu.md R128); `y` is ignored (30_encoding.md R77). -/
def execShrVx (x _y : Nibble) (s : State) : StepOutcome :=
  .next (s.setFlagAndResult x (rightBitFlag (s.getV x)) (s.getV x >>> 1))

/-- SUBN Vx,Vy (42_load_alu.md R129). -/
def execSubnVxVy (x y : Nibble) (s : State) : StepOutcome :=
  .next (s.setFlagAndResult x (noBorrowFlag (s.getV y) (s.getV x)) (s.getV y - s.getV x))

/-- SHL Vx (42_load_alu.md R130); `y` is ignored (30_encoding.md R77). -/
def execShlVx (x _y : Nibble) (s : State) : StepOutcome :=
  .next (s.setFlagAndResult x (leftBitFlag (s.getV x)) (s.getV x <<< 1))

/-- RND Vx,nn (42_load_alu.md R131): a fresh free byte under a mask. -/
def execRndVxNn (x : Nibble) (nn : Byte) (s : State) : StepOutcome :=
  .next (s.draw.2.setV x (s.draw.1 &&& nn))

end Sys2Proof.Machine
end

