-- ==== Sys2Proof/Machine/Control.lean ====
section
/-! DEFINITION. The control-transfer instructions (41_control.md R100 to R109). In every meaning `s.pc` is the post-fetch value,
the address of the instruction plus 2. -/

namespace Sys2Proof.Machine

/-- NOP (41_control.md R100). -/
def execNop (s : State) : StepOutcome := .next s

/-- RET (41_control.md R101). -/
def execRet (s : State) : StepOutcome :=
  match s.pop with
  | none => raise .stackUnderflow s
  | some (target, s') => .next (s'.setPc target)

/-- JP addr (41_control.md R102). -/
def execJpAddr (nnn : Addr12) (s : State) : StepOutcome := .next (s.setPc (addrImm nnn))

/-- CALL addr (41_control.md R103). -/
def execCallAddr (nnn : Addr12) (s : State) : StepOutcome :=
  match s.push s.pc with
  | none => raise .stackOverflow s
  | some s' => .next (s'.setPc (addrImm nnn))

/-- SE Vx,nn (41_control.md R104). -/
def execSeVxNn (x : Nibble) (nn : Byte) (s : State) : StepOutcome := .next (s.skipIf (decide (s.getV x = nn)))

/-- SNE Vx,nn (41_control.md R105). -/
def execSneVxNn (x : Nibble) (nn : Byte) (s : State) : StepOutcome := .next (s.skipIf (decide (s.getV x ≠ nn)))

/-- SE Vx,Vy (41_control.md R106). -/
def execSeVxVy (x y : Nibble) (s : State) : StepOutcome := .next (s.skipIf (decide (s.getV x = s.getV y)))

/-- SNE Vx,Vy (41_control.md R107). -/
def execSneVxVy (x y : Nibble) (s : State) : StepOutcome := .next (s.skipIf (decide (s.getV x ≠ s.getV y)))

/-- JP V0+addr (41_control.md R108): the register is always `V[0]` and the sum is not reduced modulo 4096. -/
def execJpV0Addr (nnn : Addr12) (s : State) : StepOutcome :=
  .next (s.setPc (wordOfByte (s.getV 0) + addrImm nnn))

end Sys2Proof.Machine
end

