-- ==== Sys2Proof/Machine/Pixels.lean ====
section
/-! DEFINITION. The Display Buffer (10_state.md R28): clearing it and drawing a sprite by exclusive OR with wrap-around per
pixel (44_display.md R150 to R152). -/

namespace Sys2Proof.Machine

/-- `px[row][col]`. -/
def Display.pixel (d : Display) (row : Fin 32) (col : Fin 64) : Bool := d[row][col]

/-- The display with every pixel 0 (44_display.md R150). -/
def blankDisplay : Display := Vector.replicate 32 (Vector.replicate 64 false)

/-- `px[row][col] ^ 1`. -/
def Display.toggle (d : Display) (row : Fin 32) (col : Fin 64) : Display :=
  d.set row (d[row].set col (!d[row][col]))

/-- The sprite's row `r` on the screen: vertical wrap-around (44_display.md R151). -/
def wrapRow (row0 r : Nat) : Fin 32 := ⟨(row0 + r) % 32, Nat.mod_lt _ (by decide)⟩

/-- The sprite's column `k` on the screen: horizontal wrap-around (44_display.md R151). -/
def wrapCol (col0 k : Nat) : Fin 64 := ⟨(col0 + k) % 64, Nat.mod_lt _ (by decide)⟩

/-- The pixel `k` columns from the left of a sprite byte: bit `7 - k` when bit 7 is leftmost (44_display.md R152). -/
def spriteBit (msbLeft : Bool) (b : Byte) (k : Nat) : Bool :=
  if msbLeft then b.getLsbD (7 - k) else b.getLsbD k

/-- A display being drawn on, and whether a pixel has gone from set to unset so far. -/
structure Drawing where
  px : Display
  hit : Bool
  deriving DecidableEq, Repr

/-- One pixel of the sprite (44_display.md R151, the body of the inner loop). -/
def Drawing.plot (g : Drawing) (bit : Bool) (row : Fin 32) (col : Fin 64) : Drawing :=
  if bit then { px := g.px.toggle row col, hit := g.hit || g.px.pixel row col } else g

/-- One byte of the sprite, its pixels from column `k` on, `fuel` of them (44_display.md R151, the inner loop). -/
def Drawing.plotByte (g : Drawing) (msbLeft : Bool) (b : Byte) (row : Fin 32) (col0 : Nat) : Nat → Nat → Drawing
  | _, 0 => g
  | k, fuel + 1 =>
    Drawing.plotByte (g.plot (spriteBit msbLeft b k) row (wrapCol col0 k)) msbLeft b row col0 (k + 1) fuel

/-- The bytes of the sprite from its row `r` on (44_display.md R151, the outer loop). -/
def Drawing.plotSprite (g : Drawing) (msbLeft : Bool) (row0 col0 : Nat) : Nat → List Byte → Drawing
  | _, [] => g
  | r, b :: bs =>
    Drawing.plotSprite (g.plotByte msbLeft b (wrapRow row0 r) col0 0 8) msbLeft row0 col0 (r + 1) bs

/-- A sprite drawn on the display (44_display.md R151). -/
def drawSprite (msbLeft : Bool) (d : Display) (row0 col0 : Nat) (sprite : List Byte) : Drawing :=
  Drawing.plotSprite { px := d, hit := false } msbLeft row0 col0 0 sprite

end Sys2Proof.Machine
end

