-- ==== Sys2Proof/Machine/DisplayInstr.lean ====
section
/-! DEFINITION. The display instructions (44_display.md R150 to R153). -/

namespace Sys2Proof.Machine

/-- CLS (44_display.md R150). -/
def execCls (s : State) : StepOutcome := .next { s with px := blankDisplay }

/-- The sprite DRW draws, on the display it finds (44_display.md R151): `n` bytes from `I` up, at the position of `V[x]` and
`V[y]`. -/
def State.drawing (s : State) (x y n : Nibble) : Drawing :=
  drawSprite s.params.spriteMsbLeft s.px (spriteRow (s.getV y)) (spriteCol (s.getV x)) (s.readBytes s.dataAddr n.toNat)

/-- DRW Vx,Vy,n (44_display.md R151): `V[15]` is written last, after every operand is read. -/
def execDrwVxVyN (x y n : Nibble) (s : State) : StepOutcome :=
  if rangeInMemory s.dataAddr n.toNat then
    .next (State.setV { s with px := (s.drawing x y n).px } vf (flagByte (s.drawing x y n).hit))
  else raise .memoryOutOfBounds s

end Sys2Proof.Machine
end

