-- ==== Sys2Proof/Machine/IndexMem.lean ====
section
/-! DEFINITION. The address-register and memory instructions (43_index_memory.md R140 to R146). Each checks its whole range before
it moves a byte (20_memory.md R57) and leaves `I` as it was unless its rule writes `I`. -/

namespace Sys2Proof.Machine

/-- LD I,addr (43_index_memory.md R140). -/
def execLdIAddr (nnn : Addr12) (s : State) : StepOutcome := .next (s.setI (addrImm nnn))

/-- ADD I,Vx (43_index_memory.md R141): modulo 65536, no flag. -/
def execAddIVx (x : Nibble) (s : State) : StepOutcome := .next (s.setI (s.i + wordOfByte (s.getV x)))

/-- LD F,Vx (43_index_memory.md R142). -/
def execLdFVx (x : Nibble) (s : State) : StepOutcome := .next (s.setI (glyphAddr (s.getV x)))

/-- LD B,Vx (43_index_memory.md R143). -/
def execLdBVx (x : Nibble) (s : State) : StepOutcome :=
  if rangeInMemory s.dataAddr 3 then .next (s.writeBytes s.dataAddr (bcdDigits (s.getV x)))
  else raise .memoryOutOfBounds s

/-- LD [I],Vx (43_index_memory.md R144). -/
def execLdMemVx (x : Nibble) (s : State) : StepOutcome :=
  if rangeInMemory s.dataAddr (blockSize x) then .next (s.writeBytes s.dataAddr (s.blockRegs x))
  else raise .memoryOutOfBounds s

/-- LD Vx,[I] (43_index_memory.md R145). -/
def execLdVxMem (x : Nibble) (s : State) : StepOutcome :=
  if rangeInMemory s.dataAddr (blockSize x) then .next (s.loadBlock x s.dataAddr)
  else raise .memoryOutOfBounds s

end Sys2Proof.Machine
end

