-- ==== Sys2Proof/Machine/KeypadTimers.lean ====
section
/-! DEFINITION. The keypad and timer instructions (45_keypad_timers.md R160 to R166). -/

namespace Sys2Proof.Machine

/-- SKP Vx (45_keypad_timers.md R160, R166). -/
def execSkpVx (x : Nibble) (s : State) : StepOutcome :=
  match keyIndex s.params (s.getV x) with
  | none => raise .invalidKeyIndex s
  | some k => .next (s.skipIf (s.keyPressed k))

/-- SKNP Vx (45_keypad_timers.md R161, R166). -/
def execSknpVx (x : Nibble) (s : State) : StepOutcome :=
  match keyIndex s.params (s.getV x) with
  | none => raise .invalidKeyIndex s
  | some k => .next (s.skipIf (!s.keyPressed k))

/-- LD Vx,DT (45_keypad_timers.md R162). -/
def execLdVxDt (x : Nibble) (s : State) : StepOutcome := .next (s.setV x s.dt)

/-- LD Vx,K, the STEP that fetches it (45_keypad_timers.md R163): the wait begins. -/
def execLdVxK (x : Nibble) (s : State) : StepOutcome := .next (s.beginKeyWait x)

/-- LD DT,Vx (45_keypad_timers.md R164). -/
def execLdDtVx (x : Nibble) (s : State) : StepOutcome := .next (s.setDt (s.getV x))

/-- LD ST,Vx (45_keypad_timers.md R165): no tone comes from this instruction. -/
def execLdStVx (x : Nibble) (s : State) : StepOutcome := .next (s.setSt (s.getV x))

end Sys2Proof.Machine
end

