-- ==== Sys2Proof/Machine/Cycle.lean ====
section
/-! DEFINITION. The fetch, decode and execute cycle, STEP (40_step_cycle.md R90), in its phases. -/

namespace Sys2Proof.Machine

/-- Phases 5 and 6: the dispatch of a fetched word, on the state the fetch left (40_step_cycle.md R93, R94). -/
def runWord (w : Word) (s : State) : StepOutcome :=
  match decodeWord w with
  | .ok i => exec i s
  | .error _ => .next (raiseError .unimplementedOpcode w s)

/-- Phases 3 to 6: fetch, decode, execute (40_step_cycle.md R91 to R93). -/
def fetchAndRun (s : State) : StepOutcome :=
  match fetch s with
  | some (w, s') => runWord w s'
  | none => raise .memoryOutOfBounds s

/-- STEP: the latched fault first, then the key wait, then one instruction (40_step_cycle.md R90). -/
def cycle (s : State) : StepOutcome :=
  match s.fault with
  | some kind => .fault (.halted kind s.faultWord)
  | none => if s.waiting then .next s.keyWaitStep else fetchAndRun s

/-- PROG_BASE (00_scope.md R5). -/
def progBase : Word := 0x0200

/-- The state in which the next STEP fetches at all: no fault latched, no key wait, and a `pc` a fetch succeeds at. -/
def State.readyToFetch (s : State) : State :=
  { s with fault := none, waiting := false, pc := if s.pc.toNat ≤ pcFetchMax then s.pc else progBase }

/-- A word stored at the program counter, high byte first (20_memory.md R53). -/
def State.placeWord (s : State) (w : Word) : State := s.writeBytes s.pc.toNat [highByte w, lowByte w]

end Sys2Proof.Machine
end

