-- ==== Sys2Proof/Machine/Step.lean ====
section
/-! DEFINITION. The step of the machine, and the word the host places for it. -/

namespace Sys2Proof.Machine

/-- STEP (40_step_cycle.md R90): one instruction, or one poll of a key wait, or the latched error of a halted machine. -/
def step (s : State) : Host.Outcome State Fault Refusal := cycle s

/-- `s` with the instruction `w` stored where the next step fetches, and the machine able to fetch it (log 17). -/
def State.withFetchWord (s : State) (nbits w : Nat) : State :=
  s.readyToFetch.placeWord (BitVec.ofNat 16 (w % 2 ^ nbits))

end Sys2Proof.Machine
end

