-- ==== Sys2Proof/Machine/HostOps.lean ====
section
/-! DEFINITION. The six operations of the host (00_scope.md R10) and their results. STEP is `step`; the other five act the same
while the core runs, waits for a key or is halted (60_exceptions.md R182, R186, R189). -/

namespace Sys2Proof.Machine

/-! ## RESET (70_reset_and_hazards.md R200) -/

/-- RESET: every piece of state at its reset value. The parameters are the machine's own, and the random bytes already drawn
do not come again (log 18). -/
def hostReset (s : State) : State := State.resetWith s.params s.draws

/-! ## LOAD_ROM (70_reset_and_hazards.md R203) -/

/-- ROM_MAX (00_scope.md R5). -/
def romMax : Nat := 3584

/-- LOAD_ROM: the bytes from 0x200 up and no error, or RomTooLarge and nothing changed. RomTooLarge latches nothing
(60_exceptions.md R175). -/
def loadRom (bytes : List Byte) (s : State) : Option ErrorKind × State :=
  if bytes.length > romMax then (some .romTooLarge, s) else (none, s.writeBytes progBase.toNat bytes)

/-! ## STEP's result (00_scope.md R11) -/

/-- What a STEP returns. -/
inductive StepResult where
  | ok
  | error (kind : ErrorKind) (word : Word)
  deriving DecidableEq, Repr

/-- The kind a STEP returns, none for Ok; `errorCode` of it is its number (60_exceptions.md R170). -/
def StepResult.kind? : StepResult → Option ErrorKind
  | .ok => none
  | .error kind _ => some kind

/-- The word a STEP finds to match no row, if it is one that fetches such a word (60_exceptions.md R174). -/
def unimplementedWord (s : State) : Option Word :=
  if s.waiting then none
  else match fetch s with
    | none => none
    | some (w, _) =>
      match decodeWord w with
      | .ok _ => none
      | .error _ => some w

/-- The result of STEP at a state: the latched error of a halted machine; the error this STEP raises, latched or not; else
Ok (40_step_cycle.md R90, R94). It is `none` only where `step` refuses. -/
def stepResult (s : State) : Option StepResult :=
  match step s with
  | .fault (.halted kind word) => some (.error kind word)
  | .refused _ => none
  | .next t =>
    match t.fault, unimplementedWord s with
    | some kind, _ => some (.error kind t.faultWord)
    | none, some w => some (.error .unimplementedOpcode w)
    | none, none => some .ok

/-! ## TICK (60_exceptions.md R186, R187) -/

/-- A counter one lower, saturating at 0 (10_state.md R30). -/
def countDown (b : Byte) : Byte := if b = 0 then 0 else b - 1

/-- TICK: whether the tone sounds, and both timers one lower. -/
def tick (s : State) : Bool × State := (decide (s.st = 1), { s with dt := countDown s.dt, st := countDown s.st })

/-! ## SET_KEY (60_exceptions.md R189, R190) -/

/-- The press a SET_KEY records for a key wait: the first change of a key from not pressed to pressed (R190). -/
def recordPress (s : State) (index : Nibble) (pressed : Bool) : Option Nibble :=
  if s.waiting && s.keyEvent.isNone && pressed && !s.keyPressed index then some index else s.keyEvent

/-- SET_KEY. -/
def setKey (index : Nibble) (pressed : Bool) (s : State) : State :=
  { s with keyEvent := recordPress s index pressed, key := s.key.set index.toNat pressed index.isLt }

/-! ## DISPLAY_READ (60_exceptions.md R191) -/

/-- DISPLAY_READ: the 2048 pixels, row-major. -/
def displayRead (s : State) : List Bool := s.px.toList.flatMap fun row => row.toList

/-! ## The operations under one type -/

/-- An operation of the host and its arguments (00_scope.md R10). -/
inductive HostOp where
  | reset
  | loadRom (bytes : List Byte)
  | step
  | tick
  | setKey (index : Nibble) (pressed : Bool)
  | displayRead
  deriving DecidableEq, Repr

/-- What an operation returns (00_scope.md R10). -/
inductive HostResult where
  | done
  | loaded (error : Option ErrorKind)
  | stepped (result : Option StepResult)
  | tone (sounds : Bool)
  | pixels (values : List Bool)
  deriving DecidableEq, Repr

/-- The state after a STEP; a halted machine's stays (60_exceptions.md R182). -/
def stateAfterStep (s : State) : State :=
  match step s with
  | .next t => t
  | _ => s

/-- One atomic operation of the host: its result and the state after it (00_scope.md R10). -/
def hostApply (op : HostOp) (s : State) : HostResult × State :=
  match op with
  | .reset => (.done, hostReset s)
  | .loadRom bytes => (.loaded (loadRom bytes s).1, (loadRom bytes s).2)
  | .step => (.stepped (stepResult s), stateAfterStep s)
  | .tick => (.tone (tick s).1, (tick s).2)
  | .setKey index pressed => (.done, setKey index pressed s)
  | .displayRead => (.pixels (displayRead s), s)

end Sys2Proof.Machine
end

