-- ==== Sys2Proof/Safety.lean ====
section
/-! DEFINITION. What claims are stated in terms of: when a STEP fetches, the invariants of the machine, and what one state leaves
unchanged of another, with the write column of 10_state.md R37. -/

namespace Sys2Proof.Machine

/-! ## When a STEP fetches and runs an instruction (40_step_cycle.md R90, R91) -/

/-- No fault latched, no key wait, and `pc` at most PC_FETCH_MAX. -/
abbrev State.Fetches (s : State) : Prop := s.fault = none ∧ s.waiting = false ∧ s.pc.toNat ≤ pcFetchMax

/-! ## Invariants -/

/-- The memory is in its canonical form. -/
abbrev State.MemInv (s : State) : Prop := Memory.wf s.params.font s.mem = true

/-- The bound of the program counter (10_state.md R25), with what it rests on: a stack slot holds a post-fetch value, at most
4096 (R26), and in a key wait `pc` is the address of a fetched instruction (R24). -/
abbrev State.PcInv (s : State) : Prop :=
  s.pc.toNat ≤ 0x10FE ∧ (∀ k : Fin 16, s.stack[k].toNat ≤ 4096) ∧ (s.waiting = true → s.pc.toNat ≤ pcFetchMax)

/-- What the error latch can hold: never RomTooLarge (60_exceptions.md R175), UnimplementedOpcode only under the policy `halt`
(R174), InvalidKeyIndex only under the policy `fault` (R176), and a word only for UnimplementedOpcode (10_state.md R32). -/
abbrev State.LatchInv (s : State) : Prop :=
  s.fault ≠ some .romTooLarge ∧
  (s.params.unimplPolicy = .proceed → s.fault ≠ some .unimplementedOpcode) ∧
  (s.params.keyIndexPolicy = .mask4 → s.fault ≠ some .invalidKeyIndex) ∧
  (s.fault ≠ some .unimplementedOpcode → s.faultWord = 0)

/-- A key press is recorded only during a key wait (60_exceptions.md R190). -/
abbrev State.KeyEventInv (s : State) : Prop := s.waiting = false → s.keyEvent = none

/-- The machine's invariant. -/
abbrev State.Inv (s : State) : Prop := s.MemInv ∧ s.PcInv ∧ s.LatchInv ∧ s.KeyEventInv

/-! ## What is unchanged -/

/-- A piece of state: a cell of 10_state.md R20, or one of the model's own two fields. -/
inductive Part where
  | memByte (a : Nat)
  | v (x : Nibble)
  | i
  | pc
  | stackSlot (k : Fin 16)
  | sp
  | pixel (row : Fin 32) (col : Fin 64)
  | key (k : Nibble)
  | dt
  | st
  | waiting
  | waitX
  | keyEvent
  | fault
  | faultWord
  | params
  | draws

/-- Do two states agree at a piece of state? -/
def sameAt (s t : State) : Part → Prop
  | .memByte a => t.readByte a = s.readByte a
  | .v x => t.getV x = s.getV x
  | .i => t.i = s.i
  | .pc => t.pc = s.pc
  | .stackSlot k => t.stack[k] = s.stack[k]
  | .sp => t.sp = s.sp
  | .pixel row col => t.px.pixel row col = s.px.pixel row col
  | .key k => t.keyPressed k = s.keyPressed k
  | .dt => t.dt = s.dt
  | .st => t.st = s.st
  | .waiting => t.waiting = s.waiting
  | .waitX => t.waitX = s.waitX
  | .keyEvent => t.keyEvent = s.keyEvent
  | .fault => t.fault = s.fault
  | .faultWord => t.faultWord = s.faultWord
  | .params => t.params = s.params
  | .draws => t.draws = s.draws

/-- `t` is `s` but for the pieces of state named: every other register, flag, timer, latch cell, stack slot, pixel and byte of
memory is as it was. -/
def SameOutside (touched : Part → Prop) (s t : State) : Prop := ∀ p, ¬ touched p → sameAt s t p

/-- The error latch (10_state.md R32). -/
def isLatch (p : Part) : Prop := p = .fault ∨ p = .faultWord

/-- The write column of 10_state.md R37, in the state the instruction starts from; the error latch for the instructions that
can raise an error (60_exceptions.md R170). -/
def writes (i : Instr) (s : State) (p : Part) : Prop :=
  match i with
  | .nop => False
  | .cls => ∃ row col, p = .pixel row col
  | .ret => p = .sp ∨ p = .pc ∨ isLatch p
  | .callAddr _ => (∃ k : Fin 16, k.val = s.sp.val ∧ p = .stackSlot k) ∨ p = .sp ∨ p = .pc ∨ isLatch p
  | .jpAddr _ | .jpV0Addr _ => p = .pc
  | .seVxNn _ _ | .sneVxNn _ _ | .seVxVy _ _ | .sneVxVy _ _ => p = .pc
  | .ldVxNn x _ | .addVxNn x _ => p = .v x
  | .ldVxVy x _ | .orVxVy x _ | .andVxVy x _ | .xorVxVy x _ => p = .v x
  | .addVxVy x _ | .subVxVy x _ | .subnVxVy x _ | .shrVx x _ | .shlVx x _ => p = .v 15 ∨ p = .v x
  | .ldIAddr _ | .addIVx _ | .ldFVx _ => p = .i
  | .rndVxNn x _ => p = .v x ∨ p = .draws
  | .drwVxVyN x y n =>
    (∃ r k, r < n.toNat ∧ k < 8 ∧
      p = .pixel (wrapRow (spriteRow (s.getV y)) r) (wrapCol (spriteCol (s.getV x)) k)) ∨
    p = .v 15 ∨ isLatch p
  | .skpVx _ | .sknpVx _ => p = .pc ∨ isLatch p
  | .ldVxDt x => p = .v x
  | .ldVxK _ => p = .waiting ∨ p = .waitX ∨ p = .keyEvent ∨ p = .pc
  | .ldDtVx _ => p = .dt
  | .ldStVx _ => p = .st
  | .ldBVx _ => (∃ k, k < 3 ∧ p = .memByte (s.dataAddr + k)) ∨ isLatch p
  | .ldMemVx x => (∃ k, k ≤ x.toNat ∧ p = .memByte (s.dataAddr + k)) ∨ isLatch p
  | .ldVxMem x => (∃ k : Nibble, k.toNat ≤ x.toNat ∧ p = .v k) ∨ isLatch p

/-- What an operation of the host may change (60_exceptions.md R196). RESET may change all of the spec's state and keeps the
model's own two fields (log 18). For STEP it is only what no STEP writes, the keys (and the parameters); what one instruction
writes is `writes`. -/
def hostWrites (op : HostOp) (p : Part) : Prop :=
  match op with
  | .reset => p ≠ .params ∧ p ≠ .draws
  | .loadRom bytes => ∃ k, k < bytes.length ∧ p = .memByte (0x200 + k)
  | .step => p ≠ .params ∧ ∀ k, p ≠ .key k
  | .tick => p = .dt ∨ p = .st
  | .setKey index _ => p = .key index ∨ p = .keyEvent
  | .displayRead => False

/-! ## Runs of TICKs -/

/-- A number of TICKs in a row. -/
def ticks : Nat → State → State
  | 0, s => s
  | n + 1, s => ticks n (tick s).2

end Sys2Proof.Machine
end

