-- ==== Sys2Proof/Certificates/Slice0/Obligations.lean ====
section
/-! DEFINITION. The statements about the model, in the order of OBLIGATIONS.json. Each says in its docstring which rule of spec/ it
formalises, or on which of the spec's own decisions (92_eei_decisions.md) and log entries it rests. -/

open Sys2Proof Sys2Proof.Machine

/-! ## Encoding -/

/-- Decoding an encoded instruction gives it back, for every instruction and every operand (30_encoding.md R82, R71). -/
def Obligations.DecodeInvertsEncode : Prop := ∀ i : Instr, decodeWord (encode i) = .ok i

/-- A word that decodes is the encoding of what it decodes to: no two words mean one instruction and no bit is dropped, the
ignored field of SHR and SHL included, which the model keeps as an operand (log 27). -/
def Obligations.EncodeInvertsDecode : Prop := ∀ (w : Word) (i : Instr), decodeWord w = .ok i → encode i = w

/-- The decoder follows the opcode map read as masks and matches: a word covered by some row decodes, to an instruction of a
row that covers it, and every other word is UnimplementedOpcode with the raw word (30_encoding.md R74, R76). -/
def Obligations.DecoderFollowsOpcodeTable : Prop :=
  ∀ w : Word,
    (wordWellFormed w = true → ∃ i, decodeWord w = .ok i ∧ (rowOf i).covers w = true) ∧
    (wordWellFormed w = false → decodeWord w = .error (.unimplementedOpcode w))

/-- No word matches two rows of the opcode map (30_encoding.md R75), and the map has 35 rows (R74). -/
def Obligations.OpcodeRowsDisjoint : Prop :=
  opcodeRows.length = 35 ∧
  ∀ (w : Word), ∀ r₁ ∈ opcodeRows, ∀ r₂ ∈ opcodeRows, r₁.covers w = true → r₂.covers w = true → r₁ = r₂

/-- The encodings worked out in 30_encoding.md R82 decode to the instructions they stand for, and the words of R76 do not
decode. -/
def Obligations.WorkedEncodingsDecode : Prop :=
  decodeWord 0x637F = .ok (.ldVxNn 3 0x7F) ∧
  decodeWord 0xDAB5 = .ok (.drwVxVyN 0xA 0xB 5) ∧
  decodeWord 0x2345 = .ok (.callAddr 0x345) ∧
  decodeWord 0xFE65 = .ok (.ldVxMem 0xE) ∧
  decodeWord 0xE2A1 = .ok (.sknpVx 2) ∧
  decodeWord 0x00FD = .error (.unimplementedOpcode 0x00FD)

/-- An instruction is two bytes, high byte first, whatever follows (30_encoding.md R70, 20_memory.md R53). -/
def Obligations.InstructionIsTwoBytesHighFirst : Prop :=
  ∀ (hi lo : Byte) (rest : List Byte) (i : Instr),
    decodeWord (BitVec.ofNat 16 (hi.toNat * 256 + lo.toNat)) = .ok i → decode (hi :: lo :: rest) = .ok (i, rest)

/-! ## The step -/

/-- When a STEP fetches and the two bytes at `pc` are an instruction's word, the STEP is that instruction on the state with
`pc` advanced by 2, and nothing else happens around it (40_step_cycle.md R90, R91, R93; the phases before the fetch are the
spec's own decisions D2 and D5). -/
def Obligations.StepRunsDecodedInstruction : Prop :=
  ∀ (s : State) (i : Instr), s.Fetches →
    decodeWord (BitVec.ofNat 16 ((s.readByte s.pc.toNat).toNat * 256 + (s.readByte (s.pc.toNat + 1)).toNat)) = .ok i →
    step s = exec i { s with pc := s.pc + 2 }

/-- A fetch above 4094 raises MemoryOutOfBounds and leaves `pc` as it was (40_step_cycle.md R91, R95; that the error is
latched is the spec's decision D2). -/
def Obligations.FetchBeyondMemoryLatches : Prop :=
  ∀ s : State, s.fault = none → s.waiting = false → s.pc.toNat > 4094 →
    step s = .next { s with fault := some .memoryOutOfBounds, faultWord := 0 } ∧
    stepResult s = some (.error .memoryOutOfBounds 0)

/-- A fetched word that is no instruction: the STEP returns UnimplementedOpcode with the word and advances `pc` by 2; under
`halt` the error and the word are latched, under `continue` nothing else changes (40_step_cycle.md R94, R95; the spec's
decisions D3 and D4, log 4 and log 9). -/
def Obligations.UnimplementedWordIsReported : Prop :=
  ∀ (s : State) (w : Word), s.Fetches →
    w = BitVec.ofNat 16 ((s.readByte s.pc.toNat).toNat * 256 + (s.readByte (s.pc.toNat + 1)).toNat) →
    wordWellFormed w = false →
    stepResult s = some (.error .unimplementedOpcode w) ∧
    (s.params.unimplPolicy = .halt →
      step s = .next { s with pc := s.pc + 2, fault := some .unimplementedOpcode, faultWord := w }) ∧
    (s.params.unimplPolicy = .proceed → step s = .next { s with pc := s.pc + 2 })

/-- A halted machine stays halted: every STEP returns the latched error and changes nothing (60_exceptions.md R182, the spec's
decision D2; the model's step answers a fault that carries the error, log 1). -/
def Obligations.HaltIsSticky : Prop :=
  ∀ (s : State) (kind : ErrorKind), s.fault = some kind →
    step s = .fault (.halted kind s.faultWord) ∧
    stepResult s = some (.error kind s.faultWord) ∧
    (hostApply .step s).2 = s

/-- STEP during a key wait: while no press is recorded nothing changes; once one is, the key's index goes to the register of
the wait, `pc` passes the instruction and the wait ends, and no instruction is fetched (40_step_cycle.md R96, the spec's
decisions D5 and D7, log 13). -/
def Obligations.KeyWaitPollsThenCompletes : Prop :=
  ∀ s : State, s.fault = none → s.waiting = true →
    (s.keyEvent = none → step s = .next s) ∧
    (∀ k, s.keyEvent = some k →
      ∃ t, step s = .next t ∧ (t.getV s.waitX).toNat = k.toNat ∧ t.pc = s.pc + 2 ∧ t.waiting = false ∧
        t.keyEvent = none ∧
        SameOutside (fun p => p = .v s.waitX ∨ p = .pc ∨ p = .waiting ∨ p = .keyEvent) s t)

/-- A machine that has not halted always makes its step, and returns exactly one result: no word and no state stops the model
(40_step_cycle.md R97, 00_scope.md R11). -/
def Obligations.RunningMachineAlwaysSteps : Prop :=
  ∀ s : State, s.fault = none → (∃ t, step s = .next t) ∧ (stepResult s).isSome = true

/-- A store is seen by the very next fetch: a word stored at `pc` is the instruction the next STEP runs (20_memory.md R65, the
spec's derived rule and decision D20). -/
def Obligations.StoredWordIsFetchedNext : Prop :=
  ∀ (s : State) (i : Instr), s.MemInv → s.Fetches →
    step (s.writeBytes s.pc.toNat [(encode i).extractLsb' 8 8, (encode i).extractLsb' 0 8]) =
      exec i ((s.writeBytes s.pc.toNat [(encode i).extractLsb' 8 8, (encode i).extractLsb' 0 8]).setPc (s.pc + 2))

/-! ## Invariants -/

/-- Every STEP keeps the memory in its canonical form. -/
def Obligations.StepKeepsMemoryCanonical : Prop :=
  ∀ s t : State, s.MemInv → step s = .next t → t.MemInv

/-- Every STEP keeps the bound of the program counter, 0x10FE, with the bound of the stack slots it rests on (10_state.md
R25). -/
def Obligations.StepKeepsPcBounded : Prop :=
  ∀ s t : State, s.PcInv → step s = .next t → t.PcInv

/-- Every STEP keeps the error latch legal and a key event confined to a key wait (10_state.md R32, 60_exceptions.md R174 to
R176, R190). -/
def Obligations.StepKeepsLatchAndKeyEventLegal : Prop :=
  ∀ s t : State, s.LatchInv → s.KeyEventInv → step s = .next t → t.LatchInv ∧ t.KeyEventInv

/-- Every operation of the host keeps the machine's invariant. -/
def Obligations.HostOperationsKeepInvariant : Prop :=
  ∀ (op : HostOp) (s : State), s.Inv → (hostApply op s).2.Inv

/-- Two memories in canonical form that read alike at every address are equal. -/
def Obligations.CanonicalMemoriesWithEqualReadsAreEqual : Prop :=
  ∀ (font : Vector Byte 80) (m₁ m₂ : Memory), Memory.wf font m₁ = true → Memory.wf font m₂ = true →
    (∀ a, Memory.read font m₁ a = Memory.read font m₂ a) → m₁ = m₂

/-- RESET leaves every piece of state at its reset value (10_state.md R35, 70_reset_and_hazards.md R200); the random bytes
already drawn and the parameters stay (log 18). The reset values of the last five cells are the spec's own (D2, D5, D6). -/
def Obligations.ResetLeavesResetValues : Prop :=
  ∀ s : State,
    (∀ a (h : a < 80), (hostReset s).readByte a = s.params.font[a]) ∧
    (∀ a, 80 ≤ a → (hostReset s).readByte a = 0) ∧
    (∀ x, (hostReset s).getV x = 0) ∧ (hostReset s).i = 0 ∧ (hostReset s).pc = 0x200 ∧
    (∀ k : Fin 16, (hostReset s).stack[k] = 0) ∧ (hostReset s).sp = 0 ∧
    (∀ row col, (hostReset s).px.pixel row col = false) ∧ (∀ k, (hostReset s).keyPressed k = false) ∧
    (hostReset s).dt = 0 ∧ (hostReset s).st = 0 ∧ (hostReset s).waiting = false ∧ (hostReset s).waitX = 0 ∧
    (hostReset s).keyEvent = none ∧ (hostReset s).fault = none ∧ (hostReset s).faultWord = 0 ∧
    (hostReset s).params = s.params ∧ (hostReset s).draws = s.draws

/-- The state right after RESET meets the machine's invariant, and RESET of any state with the default parameters and no byte
drawn is that state. -/
def Obligations.ResetMeetsInvariant : Prop :=
  State.reset.Inv ∧ ∀ s : State, s.params = defaultParams → s.draws = 0 → hostReset s = State.reset

/-! ## Whole-machine rules -/

/-- Which error comes from where: what a STEP of a running machine latches tells which instruction it ran and under which
condition (60_exceptions.md R170 to R177; DRW's error and InvalidKeyIndex are the spec's decisions D10 and D14). -/
def Obligations.ErrorsComeFromTheirCauses : Prop :=
  ∀ (s t : State) (kind : ErrorKind), s.fault = none → step s = .next t → t.fault = some kind →
    s.waiting = false ∧
    match kind with
    | .memoryOutOfBounds =>
      s.pc.toNat > 4094 ∨
      ∃ i, decodeWord s.wordAtPc = .ok i ∧
        ((∃ x, i = .ldBVx x ∧ s.i.toNat + 2 > 4095) ∨
         (∃ x, i = .ldMemVx x ∧ s.i.toNat + x.toNat > 4095) ∨
         (∃ x, i = .ldVxMem x ∧ s.i.toNat + x.toNat > 4095) ∨
         (∃ x y n, i = .drwVxVyN x y n ∧ n.toNat > 0 ∧ s.i.toNat + n.toNat - 1 > 4095))
    | .stackOverflow => s.pc.toNat ≤ 4094 ∧ (∃ nnn, decodeWord s.wordAtPc = .ok (.callAddr nnn)) ∧ s.sp.val = 16
    | .stackUnderflow => s.pc.toNat ≤ 4094 ∧ decodeWord s.wordAtPc = .ok .ret ∧ s.sp.val = 0
    | .unimplementedOpcode =>
      s.pc.toNat ≤ 4094 ∧ wordWellFormed s.wordAtPc = false ∧ s.params.unimplPolicy = .halt ∧ t.faultWord = s.wordAtPc
    | .romTooLarge => False
    | .invalidKeyIndex =>
      s.pc.toNat ≤ 4094 ∧ s.params.keyIndexPolicy = .fault ∧
      ∃ x, (decodeWord s.wordAtPc = .ok (.skpVx x) ∨ decodeWord s.wordAtPc = .ok (.sknpVx x)) ∧ (s.getV x).toNat > 15

/-- Errors are precise: a STEP that latches an error changes nothing but the latch and, when its fetch succeeded, `pc`, by 2
(60_exceptions.md R180, 40_step_cycle.md R95, the spec's decision D4, log 9). -/
def Obligations.ErrorsArePrecise : Prop :=
  ∀ (s t : State) (kind : ErrorKind), s.fault = none → step s = .next t → t.fault = some kind →
    t = { s with fault := some kind, faultWord := t.faultWord,
                 pc := if s.pc.toNat ≤ 4094 then s.pc + 2 else s.pc }

/-- Every instruction writes only its own row of 10_state.md R37, and the error latch where it can raise an error: every other
register, stack slot, pixel, key, timer, latch cell and byte of memory is as before. -/
def Obligations.InstructionWritesOnlyItsRow : Prop :=
  ∀ (i : Instr) (s t : State), exec i s = .next t → SameOutside (writes i s) s t

/-- A STEP never writes a key; a timer changes only in a STEP that runs LD DT,Vx or LD ST,Vx (40_step_cycle.md R97,
60_exceptions.md R196). -/
def Obligations.StepWritesNoKeyAndTimersOnlyByLoads : Prop :=
  ∀ s t : State, step s = .next t →
    t.key = s.key ∧ t.params = s.params ∧
    (t.dt ≠ s.dt → ∃ x, decodeWord s.wordAtPc = .ok (.ldDtVx x) ∧ t.dt = s.getV x) ∧
    (t.st ≠ s.st → ∃ x, decodeWord s.wordAtPc = .ok (.ldStVx x) ∧ t.st = s.getV x)

/-- The frame of each host operation (60_exceptions.md section 9): TICK, SET_KEY, LOAD_ROM and DISPLAY_READ change their own cells
only. RESET may change every piece of the spec's state; that it keeps the model's own fields, the parameters and the draw
counter, is the model's choice (log 18). For STEP it says only that the keys and the parameters stay; the rest of STEP's row is
InstructionWritesOnlyItsRow and StepWritesNoKeyAndTimersOnlyByLoads. -/
def Obligations.HostOperationsWriteOnlyTheirs : Prop :=
  ∀ (op : HostOp) (s : State), SameOutside (hostWrites op) s (hostApply op s).2

/-- What the program cannot see. On two states that differ only in their pixels, an instruction other than DRW does the same,
up to the pixels (44_display.md R153); on two states that differ only in the sound timer, every instruction does the same, up
to the sound timer, which no instruction reads (10_state.md R30, R34). -/
def Obligations.DisplayAndSoundTimerAreInvisible : Prop :=
  (∀ (i : Instr) (s t : State) (d : Display), (∀ x y n, i ≠ .drwVxVyN x y n) → exec i s = .next t →
    ∃ t', exec i { s with px := d } = .next t' ∧ { t' with px := t.px } = t) ∧
  (∀ (i : Instr) (s t : State) (b : Byte), exec i s = .next t →
    ∃ t', exec i { s with st := b } = .next t' ∧ { t' with st := t.st } = t)

/-! ## Control transfer (41_control.md) -/

/-- NOP: no state change (41_control.md R100). -/
def Obligations.NopChangesNothing : Prop :=
  encode .nop = 0x0000 ∧ ∀ s : State, exec .nop s = .next s

/-- JP addr: `pc` becomes `nnn` and nothing else changes (41_control.md R102). -/
def Obligations.JpSetsPc : Prop :=
  ∀ (nnn : Addr12) (s : State), encode (.jpAddr nnn) = 0x1#4 ++ nnn ∧
    ∃ t, exec (.jpAddr nnn) s = .next t ∧ t.pc.toNat = nnn.toNat ∧ SameOutside (fun p => p = .pc) s t

/-- A jump to its own address leaves the whole state unchanged (41_control.md R102, 70_reset_and_hazards.md R212). -/
def Obligations.SelfJumpIsAFixedPoint : Prop :=
  ∀ (s : State) (nnn : Addr12), s.Fetches → decodeWord s.wordAtPc = .ok (.jpAddr nnn) → s.pc.toNat = nnn.toNat →
    step s = .next s

/-- JP V0+addr: `pc` becomes the exact sum of `V[0]` and `nnn`, not reduced modulo 4096, and nothing else changes
(41_control.md R108). -/
def Obligations.JpV0AddsRegisterZero : Prop :=
  ∀ (nnn : Addr12) (s : State), encode (.jpV0Addr nnn) = 0xB#4 ++ nnn ∧
    ∃ t, exec (.jpV0Addr nnn) s = .next t ∧ t.pc.toNat = (s.getV 0).toNat + nnn.toNat ∧
      SameOutside (fun p => p = .pc) s t

/-- CALL addr: with a slot free, the post-fetch `pc` is pushed and `pc` becomes `nnn`; with all 16 used, StackOverflow is
latched and nothing else changes (41_control.md R103; the latch is the spec's decision D2). -/
def Obligations.CallPushesOrOverflows : Prop :=
  ∀ (nnn : Addr12) (s : State),
    (∀ h : s.sp.val < 16,
      ∃ t, exec (.callAddr nnn) s = .next t ∧ t.stack[s.sp.val] = s.pc ∧ t.sp.val = s.sp.val + 1 ∧
        t.pc.toNat = nnn.toNat ∧
        SameOutside (fun p => p = .stackSlot ⟨s.sp.val, h⟩ ∨ p = .sp ∨ p = .pc) s t) ∧
    (s.sp.val = 16 → exec (.callAddr nnn) s = .next { s with fault := some .stackOverflow, faultWord := 0 })

/-- RET: with a slot used, `pc` becomes the top slot, which keeps its value (D21), and `sp` goes down by one; with none used,
StackUnderflow is latched and nothing else changes (41_control.md R101; the latch is the spec's decision D2). -/
def Obligations.RetPopsOrUnderflows : Prop :=
  ∀ s : State,
    (∀ h : 0 < s.sp.val,
      ∃ t, exec .ret s = .next t ∧ t.pc = s.stack[s.sp.val - 1] ∧ t.sp.val = s.sp.val - 1 ∧
        SameOutside (fun p => p = .sp ∨ p = .pc) s t) ∧
    (s.sp.val = 0 → exec .ret s = .next { s with fault := some .stackUnderflow, faultWord := 0 })

/-- CALL then RET round-trips the program counter and the stack pointer (41_control.md R101, R103; 95_test_vectors.md E4). -/
def Obligations.CallThenRetRoundTrips : Prop :=
  ∀ (nnn : Addr12) (s t u : State) (w : Word), s.sp.val < 16 → exec (.callAddr nnn) s = .next t →
    exec .ret (t.setPc w) = .next u → u.pc = s.pc ∧ u.sp = s.sp

/-- The four skips: `pc` goes 2 further exactly when the condition holds, and nothing else changes (41_control.md R104 to
R107). -/
def Obligations.SkipsAdvanceExactlyOnCondition : Prop :=
  ∀ (x y : Nibble) (nn : Byte) (s : State),
    (encode (.seVxNn x nn) = 0x3#4 ++ x ++ nn ∧ encode (.sneVxNn x nn) = 0x4#4 ++ x ++ nn ∧
      encode (.seVxVy x y) = 0x5#4 ++ x ++ y ++ 0x0#4 ∧ encode (.sneVxVy x y) = 0x9#4 ++ x ++ y ++ 0x0#4) ∧
    (∃ t, exec (.seVxNn x nn) s = .next t ∧ t.pc = (if s.getV x = nn then s.pc + 2 else s.pc) ∧
      SameOutside (fun p => p = .pc) s t) ∧
    (∃ t, exec (.sneVxNn x nn) s = .next t ∧ t.pc = (if s.getV x = nn then s.pc else s.pc + 2) ∧
      SameOutside (fun p => p = .pc) s t) ∧
    (∃ t, exec (.seVxVy x y) s = .next t ∧ t.pc = (if s.getV x = s.getV y then s.pc + 2 else s.pc) ∧
      SameOutside (fun p => p = .pc) s t) ∧
    (∃ t, exec (.sneVxVy x y) s = .next t ∧ t.pc = (if s.getV x = s.getV y then s.pc else s.pc + 2) ∧
      SameOutside (fun p => p = .pc) s t)

/-! ## Registers and arithmetic (42_load_alu.md) -/

/-- LD Vx,nn and LD Vx,Vy copy, ADD Vx,nn adds modulo 256; each writes `V[x]` only, `V[15]` as any other (42_load_alu.md R120,
R121, R122). -/
def Obligations.LoadsAndAddImmediateWriteOnlyVx : Prop :=
  ∀ (x y : Nibble) (nn : Byte) (s : State),
    (encode (.ldVxNn x nn) = 0x6#4 ++ x ++ nn ∧ encode (.addVxNn x nn) = 0x7#4 ++ x ++ nn ∧
      encode (.ldVxVy x y) = 0x8#4 ++ x ++ y ++ 0x0#4) ∧
    (∃ t, exec (.ldVxNn x nn) s = .next t ∧ t.getV x = nn ∧ SameOutside (fun p => p = .v x) s t) ∧
    (∃ t, exec (.addVxNn x nn) s = .next t ∧ (t.getV x).toNat = ((s.getV x).toNat + nn.toNat) % 256 ∧
      SameOutside (fun p => p = .v x) s t) ∧
    (∃ t, exec (.ldVxVy x y) s = .next t ∧ t.getV x = s.getV y ∧ SameOutside (fun p => p = .v x) s t)

/-- OR, AND and XOR act bit by bit and write `V[x]` only: `V[15]` is no flag of theirs (42_load_alu.md R123, R124, R125). -/
def Obligations.LogicIsBitwiseAndWritesNoFlag : Prop :=
  ∀ (x y : Nibble) (s : State),
    (encode (.orVxVy x y) = 0x8#4 ++ x ++ y ++ 0x1#4 ∧ encode (.andVxVy x y) = 0x8#4 ++ x ++ y ++ 0x2#4 ∧
      encode (.xorVxVy x y) = 0x8#4 ++ x ++ y ++ 0x3#4) ∧
    (∃ t, exec (.orVxVy x y) s = .next t ∧
      (∀ k < 8, (t.getV x).getLsbD k = ((s.getV x).getLsbD k || (s.getV y).getLsbD k)) ∧
      SameOutside (fun p => p = .v x) s t) ∧
    (∃ t, exec (.andVxVy x y) s = .next t ∧
      (∀ k < 8, (t.getV x).getLsbD k = ((s.getV x).getLsbD k && (s.getV y).getLsbD k)) ∧
      SameOutside (fun p => p = .v x) s t) ∧
    (∃ t, exec (.xorVxVy x y) s = .next t ∧
      (∀ k < 8, (t.getV x).getLsbD k = ((s.getV x).getLsbD k ^^ (s.getV y).getLsbD k)) ∧
      SameOutside (fun p => p = .v x) s t)

/-- ADD Vx,Vy with a destination other than `V[15]`: the sum modulo 256 and the carry; `y` may be 15 or `x` (42_load_alu.md
R126; the reads before the writes are the spec's decision D8). -/
def Obligations.AddSetsSumAndCarry : Prop :=
  ∀ (x y : Nibble) (s : State), x ≠ 15 →
    ∃ t, exec (.addVxVy x y) s = .next t ∧
      (t.getV x).toNat = ((s.getV x).toNat + (s.getV y).toNat) % 256 ∧
      (t.getV 15).toNat = (if (s.getV x).toNat + (s.getV y).toNat ≥ 256 then 1 else 0) ∧
      SameOutside (fun p => p = .v x ∨ p = .v 15) s t

/-- SUB and SUBN with a destination other than `V[15]`: the difference modulo 256 and the no-borrow flag, set on equal operands
(42_load_alu.md R127, R129, R132; the reads before the writes are the spec's decision D8). -/
def Obligations.SubtractionsSetDifferenceAndNoBorrow : Prop :=
  ∀ (x y : Nibble) (s : State), x ≠ 15 →
    (∃ t, exec (.subVxVy x y) s = .next t ∧
      ((t.getV x).toNat : Int) = ((s.getV x).toNat - (s.getV y).toNat : Int) % 256 ∧
      (t.getV 15).toNat = (if (s.getV x).toNat ≥ (s.getV y).toNat then 1 else 0) ∧
      SameOutside (fun p => p = .v x ∨ p = .v 15) s t) ∧
    (∃ t, exec (.subnVxVy x y) s = .next t ∧
      ((t.getV x).toNat : Int) = ((s.getV y).toNat - (s.getV x).toNat : Int) % 256 ∧
      (t.getV 15).toNat = (if (s.getV y).toNat ≥ (s.getV x).toNat then 1 else 0) ∧
      SameOutside (fun p => p = .v x ∨ p = .v 15) s t)

/-- SHR and SHL with a destination other than `V[15]`: `V[x]` halved or doubled modulo 256 and the bit shifted out, whatever
`y` is (42_load_alu.md R128, R130, R132; 30_encoding.md R77; the reads before the writes are the spec's decision D8). -/
def Obligations.ShiftsSetResultAndBitShiftedOut : Prop :=
  ∀ (x y : Nibble) (s : State), x ≠ 15 →
    (∃ t, exec (.shrVx x y) s = .next t ∧ (t.getV x).toNat = (s.getV x).toNat / 2 ∧
      (t.getV 15).toNat = (s.getV x).toNat % 2 ∧ SameOutside (fun p => p = .v x ∨ p = .v 15) s t) ∧
    (∃ t, exec (.shlVx x y) s = .next t ∧ (t.getV x).toNat = (s.getV x).toNat * 2 % 256 ∧
      (t.getV 15).toNat = (s.getV x).toNat / 128 ∧ SameOutside (fun p => p = .v x ∨ p = .v 15) s t) ∧
    (∀ y', exec (.shrVx x y') s = exec (.shrVx x y) s ∧ exec (.shlVx x y') s = exec (.shlVx x y) s)

/-- The five flag-writing instructions with `V[15]` as their destination: under `result_last` the result survives, under
`flag_last` the flag, and no other register changes (42_load_alu.md R133, the spec's decision D8, log 7). -/
def Obligations.FlagRegisterAsDestination : Prop :=
  ∀ (y : Nibble) (s : State),
    (∃ t, exec (.addVxVy 15 y) s = .next t ∧ SameOutside (fun p => p = .v 15) s t ∧
      (t.getV 15).toNat = match s.params.vfWriteOrder with
        | .resultLast => ((s.getV 15).toNat + (s.getV y).toNat) % 256
        | .flagLast => if (s.getV 15).toNat + (s.getV y).toNat ≥ 256 then 1 else 0) ∧
    (∃ t, exec (.subVxVy 15 y) s = .next t ∧ SameOutside (fun p => p = .v 15) s t ∧
      ((t.getV 15).toNat : Int) = match s.params.vfWriteOrder with
        | .resultLast => ((s.getV 15).toNat - (s.getV y).toNat : Int) % 256
        | .flagLast => if (s.getV 15).toNat ≥ (s.getV y).toNat then 1 else 0) ∧
    (∃ t, exec (.subnVxVy 15 y) s = .next t ∧ SameOutside (fun p => p = .v 15) s t ∧
      ((t.getV 15).toNat : Int) = match s.params.vfWriteOrder with
        | .resultLast => ((s.getV y).toNat - (s.getV 15).toNat : Int) % 256
        | .flagLast => if (s.getV y).toNat ≥ (s.getV 15).toNat then 1 else 0) ∧
    (∃ t, exec (.shrVx 15 y) s = .next t ∧ SameOutside (fun p => p = .v 15) s t ∧
      (t.getV 15).toNat = match s.params.vfWriteOrder with
        | .resultLast => (s.getV 15).toNat / 2
        | .flagLast => (s.getV 15).toNat % 2) ∧
    (∃ t, exec (.shlVx 15 y) s = .next t ∧ SameOutside (fun p => p = .v 15) s t ∧
      (t.getV 15).toNat = match s.params.vfWriteOrder with
        | .resultLast => (s.getV 15).toNat * 2 % 256
        | .flagLast => (s.getV 15).toNat / 128)

/-- RND Vx,nn: `V[x]` becomes a free byte under the mask, so a bit that is 0 in `nn` is 0, and the next draw is another one
(42_load_alu.md R131; how the free byte is held is the model's choice, log 3). -/
def Obligations.RndMasksAFreshFreeByte : Prop :=
  ∀ (x : Nibble) (nn : Byte) (s : State),
    ∃ t, exec (.rndVxNn x nn) s = .next t ∧ t.getV x = Config.draw8 s.draws &&& nn ∧ t.draws = s.draws + 1 ∧
      (∀ k, nn.getLsbD k = false → (t.getV x).getLsbD k = false) ∧
      SameOutside (fun p => p = .v x ∨ p = .draws) s t

/-! ## The address register and memory (43_index_memory.md) -/

/-- LD I,addr, ADD I,Vx (modulo 65536) and LD F,Vx (5 times the low nibble) write `I` only (43_index_memory.md R140, R141,
R142). -/
def Obligations.AddressRegisterWrites : Prop :=
  ∀ (nnn : Addr12) (x : Nibble) (s : State),
    (encode (.ldIAddr nnn) = 0xA#4 ++ nnn ∧ encode (.addIVx x) = 0xF#4 ++ x ++ 0x1E#8 ∧
      encode (.ldFVx x) = 0xF#4 ++ x ++ 0x29#8) ∧
    (∃ t, exec (.ldIAddr nnn) s = .next t ∧ t.i.toNat = nnn.toNat ∧ SameOutside (fun p => p = .i) s t) ∧
    (∃ t, exec (.addIVx x) s = .next t ∧ t.i.toNat = (s.i.toNat + (s.getV x).toNat) % 65536 ∧
      SameOutside (fun p => p = .i) s t) ∧
    (∃ t, exec (.ldFVx x) s = .next t ∧ t.i.toNat = 5 * ((s.getV x).toNat % 16) ∧ SameOutside (fun p => p = .i) s t)

/-- LD B,Vx: with its three bytes in memory, the decimal digits of `V[x]` at `I`, `I + 1`, `I + 2`, and nothing else changes
(43_index_memory.md R143, R146). -/
def Obligations.BcdStoresThreeDigits : Prop :=
  ∀ (x : Nibble) (s : State), s.MemInv → s.i.toNat + 2 ≤ 4095 →
    ∃ t, exec (.ldBVx x) s = .next t ∧
      (t.readByte s.i.toNat).toNat = (s.getV x).toNat / 100 ∧
      (t.readByte (s.i.toNat + 1)).toNat = (s.getV x).toNat / 10 % 10 ∧
      (t.readByte (s.i.toNat + 2)).toNat = (s.getV x).toNat % 10 ∧
      SameOutside (fun p => ∃ k, k < 3 ∧ p = .memByte (s.i.toNat + k)) s t

/-- LD [I],Vx: with its bytes in memory, `V[k]` at `I + k` for every `k` up to `x`, and nothing else changes
(43_index_memory.md R144, R146). -/
def Obligations.BlockStoreStoresRegisters : Prop :=
  ∀ (x : Nibble) (s : State), s.MemInv → s.i.toNat + x.toNat ≤ 4095 →
    ∃ t, exec (.ldMemVx x) s = .next t ∧
      (∀ k : Nibble, k.toNat ≤ x.toNat → t.readByte (s.i.toNat + k.toNat) = s.getV k) ∧
      SameOutside (fun p => ∃ k, k ≤ x.toNat ∧ p = .memByte (s.i.toNat + k)) s t

/-- LD Vx,[I]: with its bytes in memory, the byte at `I + k` in `V[k]` for every `k` up to `x`, and nothing else changes
(43_index_memory.md R145, R146). -/
def Obligations.BlockLoadLoadsRegisters : Prop :=
  ∀ (x : Nibble) (s : State), s.i.toNat + x.toNat ≤ 4095 →
    ∃ t, exec (.ldVxMem x) s = .next t ∧
      (∀ k : Nibble, k.toNat ≤ x.toNat → t.getV k = s.readByte (s.i.toNat + k.toNat)) ∧
      SameOutside (fun p => ∃ k : Nibble, k.toNat ≤ x.toNat ∧ p = .v k) s t

/-- A block stored and loaded again is the same block: with any registers in between, the load gives back the stored values
(43_index_memory.md R144, R145, R146). -/
def Obligations.BlockStoreThenLoadRestores : Prop :=
  ∀ (x k : Nibble) (s t u : State) (regs : Vector Byte 16), s.MemInv → s.i.toNat + x.toNat ≤ 4095 →
    exec (.ldMemVx x) s = .next t → exec (.ldVxMem x) { t with v := regs } = .next u →
    u.getV k = if k.toNat ≤ x.toNat then s.getV k else regs[k.toNat]'k.isLt

/-- An access range that passes 4095 latches MemoryOutOfBounds before any byte moves, and nothing else changes; an empty sprite
passes nothing (20_memory.md R57; DRW's bound and the latch are the spec's decisions D10 and D2; `I` is not masked, D9). -/
def Obligations.AccessBeyondMemoryLatches : Prop :=
  ∀ (x y n : Nibble) (s : State),
    (s.i.toNat + 2 > 4095 →
      exec (.ldBVx x) s = .next { s with fault := some .memoryOutOfBounds, faultWord := 0 }) ∧
    (s.i.toNat + x.toNat > 4095 →
      exec (.ldMemVx x) s = .next { s with fault := some .memoryOutOfBounds, faultWord := 0 } ∧
      exec (.ldVxMem x) s = .next { s with fault := some .memoryOutOfBounds, faultWord := 0 }) ∧
    (n.toNat > 0 → s.i.toNat + n.toNat - 1 > 4095 →
      exec (.drwVxVyN x y n) s = .next { s with fault := some .memoryOutOfBounds, faultWord := 0 })

/-! ## The display (44_display.md) -/

/-- CLS: every pixel 0 and nothing else changes (44_display.md R150). -/
def Obligations.ClsClearsEveryPixel : Prop :=
  encode .cls = 0x00E0 ∧
  ∀ s : State, ∃ t, exec .cls s = .next t ∧ (∀ row col, t.px.pixel row col = false) ∧
    SameOutside (fun p => ∃ row col, p = .pixel row col) s t

/-- DRW Vx,Vy,n: with its sprite in memory (or `n = 0`), the pixel of bit `k` of sprite byte `r`, at row `(V[y] + r) mod 32` and
column `(V[x] + k) mod 64`, is toggled when the bit is 1 and kept when it is 0; `V[15]` is 1 when some toggled pixel was set,
else 0; nothing else changes (44_display.md R151; which bit is leftmost is the parameter of R152, D11; `n = 0` is D23). -/
def Obligations.DrwTogglesSpritePixelsAndReportsCollision : Prop :=
  ∀ (x y n : Nibble) (s : State), n.toNat = 0 ∨ s.i.toNat + n.toNat - 1 ≤ 4095 →
    let row := fun r : Nat => (⟨((s.getV y).toNat % 32 + r) % 32, Nat.mod_lt _ (by decide)⟩ : Fin 32)
    let col := fun k : Nat => (⟨((s.getV x).toNat % 64 + k) % 64, Nat.mod_lt _ (by decide)⟩ : Fin 64)
    let bit := fun r k : Nat =>
      (s.readByte (s.i.toNat + r)).getLsbD (if s.params.spriteMsbLeft then 7 - k else k)
    ∃ t, exec (.drwVxVyN x y n) s = .next t ∧
      (∀ r k, r < n.toNat → k < 8 →
        t.px.pixel (row r) (col k) = (s.px.pixel (row r) (col k) ^^ bit r k)) ∧
      ((∃ r k, r < n.toNat ∧ k < 8 ∧ bit r k = true ∧ s.px.pixel (row r) (col k) = true) → t.getV 15 = 1) ∧
      ((∀ r k, r < n.toNat → k < 8 → bit r k = true → s.px.pixel (row r) (col k) = false) → t.getV 15 = 0) ∧
      SameOutside (fun p => p = .v 15 ∨ ∃ r k, r < n.toNat ∧ k < 8 ∧ p = .pixel (row r) (col k)) s t

/-- The same sprite drawn twice at the same place leaves every display as it was; on a blank display the first draw reports no
collision and the second reports one exactly when some sprite byte is not 0 (95_test_vectors.md E5, 44_display.md R151). The
coordinate registers are other than `V[15]`, which the first draw writes. -/
def Obligations.DrawingTwiceErases : Prop :=
  ∀ (x y n : Nibble) (s t u : State), x ≠ 15 → y ≠ 15 →
    (n.toNat = 0 ∨ s.i.toNat + n.toNat - 1 ≤ 4095) →
    exec (.drwVxVyN x y n) s = .next t → exec (.drwVxVyN x y n) t = .next u →
    u.px = s.px ∧
    ((∀ row col, s.px.pixel row col = false) →
      t.getV 15 = 0 ∧ (u.getV 15 = 1 ↔ ∃ r, r < n.toNat ∧ s.readByte (s.i.toNat + r) ≠ 0))

/-! ## Keypad and timers (45_keypad_timers.md) -/

/-- SKP and SKNP with a key index: the skip is taken exactly when the key is pressed, or not pressed, and nothing else changes.
The index is `V[x]`, or its low nibble under `mask4` (45_keypad_timers.md R160, R161, R166; D14, log 5). -/
def Obligations.KeySkipsTestTheLatch : Prop :=
  ∀ (x k : Nibble) (s : State),
    (s.getV x).toNat = k.toNat ∨ (s.params.keyIndexPolicy = .mask4 ∧ (s.getV x).toNat % 16 = k.toNat) →
    (∃ t, exec (.skpVx x) s = .next t ∧ t.pc = (if s.keyPressed k = true then s.pc + 2 else s.pc) ∧
      SameOutside (fun p => p = .pc) s t) ∧
    (∃ t, exec (.sknpVx x) s = .next t ∧ t.pc = (if s.keyPressed k = true then s.pc else s.pc + 2) ∧
      SameOutside (fun p => p = .pc) s t)

/-- SKP and SKNP with `V[x]` above 15, under the policy `fault`, latch InvalidKeyIndex and change nothing else
(45_keypad_timers.md R166, the spec's decision D14, log 5). -/
def Obligations.KeySkipsBeyondTheLatchFail : Prop :=
  ∀ (x : Nibble) (s : State), s.params.keyIndexPolicy = .fault → (s.getV x).toNat > 15 →
    exec (.skpVx x) s = .next { s with fault := some .invalidKeyIndex, faultWord := 0 } ∧
    exec (.sknpVx x) s = .next { s with fault := some .invalidKeyIndex, faultWord := 0 }

/-- LD Vx,DT reads the delay timer and LD DT,Vx sets it; nothing else changes (45_keypad_timers.md R162, R164). -/
def Obligations.DelayTimerLoads : Prop :=
  ∀ (x : Nibble) (s : State),
    (encode (.ldVxDt x) = 0xF#4 ++ x ++ 0x07#8 ∧ encode (.ldDtVx x) = 0xF#4 ++ x ++ 0x15#8) ∧
    (∃ t, exec (.ldVxDt x) s = .next t ∧ t.getV x = s.dt ∧ SameOutside (fun p => p = .v x) s t) ∧
    (∃ t, exec (.ldDtVx x) s = .next t ∧ t.dt = s.getV x ∧ SameOutside (fun p => p = .dt) s t)

/-- LD ST,Vx sets the sound timer and nothing else; after it the tone sounds at the `k`-th TICK exactly, for `k` the value set,
and never for 0 (45_keypad_timers.md R165, 60_exceptions.md R187; that the tone is TICK's result is D27, log 24). -/
def Obligations.SoundTimerSoundsOnceAtExpiry : Prop :=
  ∀ (x : Nibble) (s : State),
    ∃ t, exec (.ldStVx x) s = .next t ∧ t.st = s.getV x ∧ SameOutside (fun p => p = .st) s t ∧
      ∀ n : Nat, (tick (ticks n t)).1 = true ↔ (s.getV x).toNat = n + 1

/-- LD Vx,K begins the wait: `waiting` set, the register noted, no key event, `pc` back at the instruction, nothing else
(45_keypad_timers.md R163; how the wait is held is the spec's decision D5, log 13). -/
def Obligations.KeyWaitBegins : Prop :=
  ∀ (x : Nibble) (s : State),
    ∃ t, exec (.ldVxK x) s = .next t ∧ t.waiting = true ∧ t.waitX = x ∧ t.keyEvent = none ∧ t.pc = s.pc - 2 ∧
      SameOutside (fun p => p = .waiting ∨ p = .waitX ∨ p = .keyEvent ∨ p = .pc) s t

/-- The key wait as a whole: from the STEP that fetches LD Vx,K, `pc` stays at its address until a key goes from not pressed to
pressed; the STEP after that puts the key's index in `V[x]` and passes the instruction. A key held from before does not
complete the wait (45_keypad_timers.md R163, 60_exceptions.md R190; D5, D6, D7, log 13). -/
def Obligations.KeyWaitCompletesOnPress : Prop :=
  ∀ (s : State) (x k : Nibble), s.Fetches → decodeWord s.wordAtPc = .ok (.ldVxK x) →
    ∃ t, step s = .next t ∧ t.pc = s.pc ∧ step t = .next t ∧
      (s.keyPressed k = true → step (setKey k true t) = .next (setKey k true t)) ∧
      (s.keyPressed k = false →
        ∃ u, step (setKey k true t) = .next u ∧ (u.getV x).toNat = k.toNat ∧ u.pc = s.pc + 2 ∧ u.waiting = false ∧
          u.keyEvent = none)

/-! ## The operations of the host (60_exceptions.md, 70_reset_and_hazards.md) -/

/-- TICK lowers each timer by one unless it is 0, reports the tone exactly when the sound timer was 1, and changes nothing else,
in every state (60_exceptions.md R186; D18, D27). -/
def Obligations.TickCountsDownAndReportsTone : Prop :=
  ∀ s : State, ((tick s).2.dt.toNat = s.dt.toNat - 1 ∧ (tick s).2.st.toNat = s.st.toNat - 1) ∧
    ((tick s).1 = true ↔ s.st.toNat = 1) ∧ SameOutside (fun p => p = .dt ∨ p = .st) s (tick s).2

/-- SET_KEY sets the key's cell and records the first press of a key wait: no other SET_KEY changes `key_event`
(60_exceptions.md R189, R190, the spec's decision D6). -/
def Obligations.SetKeySetsCellAndRecordsFirstPress : Prop :=
  ∀ (k : Nibble) (pressed : Bool) (s : State),
    (setKey k pressed s).keyPressed k = pressed ∧
    (s.waiting = true → s.keyEvent = none → pressed = true → s.keyPressed k = false →
      (setKey k pressed s).keyEvent = some k) ∧
    (¬ (s.waiting = true ∧ s.keyEvent = none ∧ pressed = true ∧ s.keyPressed k = false) →
      (setKey k pressed s).keyEvent = s.keyEvent) ∧
    SameOutside (fun p => p = .key k ∨ p = .keyEvent) s (setKey k pressed s)

/-- LOAD_ROM of at most 3584 bytes puts them at 0x200 up and changes nothing else; of more, it returns RomTooLarge and changes
nothing (70_reset_and_hazards.md R203, D17). -/
def Obligations.LoadRomCopiesOrRefuses : Prop :=
  ∀ (bytes : List Byte) (s : State), s.MemInv →
    (bytes.length > 3584 → loadRom bytes s = (some .romTooLarge, s)) ∧
    (bytes.length ≤ 3584 →
      (loadRom bytes s).1 = none ∧
      (∀ k (h : k < bytes.length), (loadRom bytes s).2.readByte (0x200 + k) = bytes[k]) ∧
      SameOutside (fun p => ∃ k, k < bytes.length ∧ p = .memByte (0x200 + k)) s (loadRom bytes s).2)

/-- DISPLAY_READ returns the 2048 pixels row-major and changes nothing (60_exceptions.md R191, 10_state.md R28). -/
def Obligations.DisplayReadIsRowMajor : Prop :=
  ∀ s : State, (hostApply .displayRead s).2 = s ∧ (displayRead s).length = 2048 ∧
    ∀ (row : Fin 32) (col : Fin 64), (displayRead s)[row.val * 64 + col.val]? = some (s.px.pixel row col)
end

