-- ==== Sys2Proof/Laws/Decode.lean ====
section
/-! SUPPORT. The fields of a word written in each format (30_encoding.md R71, R72, R82), and a word put together again from its
fields. -/

namespace Sys2Proof

/-- Concatenation as arithmetic. -/
theorem toNat_append_eq {n m : Nat} (a : BitVec n) (b : BitVec m) : (a ++ b).toNat = a.toNat * 2 ^ m + b.toNat := by
  rw [BitVec.toNat_append, ← Nat.shiftLeft_add_eq_or_of_lt b.isLt, Nat.shiftLeft_eq]

theorem toNat_wordNNN (op : Nibble) (nnn : Addr12) : (wordNNN op nnn).toNat = op.toNat * 4096 + nnn.toNat :=
  toNat_append_eq op nnn

theorem toNat_wordXNN (op x : Nibble) (nn : Byte) :
    (wordXNN op x nn).toNat = op.toNat * 4096 + x.toNat * 256 + nn.toNat := by
  have : (wordXNN op x nn).toNat = (op ++ x).toNat * 2 ^ 8 + nn.toNat := toNat_append_eq (op ++ x) nn
  rw [this, toNat_append_eq]; omega

theorem toNat_wordXYN (op x y n : Nibble) :
    (wordXYN op x y n).toNat = op.toNat * 4096 + x.toNat * 256 + y.toNat * 16 + n.toNat := by
  have : (wordXYN op x y n).toNat = (op ++ x ++ y).toNat * 2 ^ 4 + n.toNat := toNat_append_eq (op ++ x ++ y) n
  rw [this, toNat_append_eq, toNat_append_eq]; omega

theorem toNat_nibble1 (w : Word) : (nibble1 w).toNat = w.toNat / 4096 := by
  have := w.isLt
  simp [nibble1, Nat.shiftRight_eq_div_pow]; omega

theorem toNat_nibble2 (w : Word) : (nibble2 w).toNat = w.toNat / 256 % 16 := by
  simp [nibble2, Nat.shiftRight_eq_div_pow]

theorem toNat_nibble3 (w : Word) : (nibble3 w).toNat = w.toNat / 16 % 16 := by
  simp [nibble3, Nat.shiftRight_eq_div_pow]

theorem toNat_nibble4 (w : Word) : (nibble4 w).toNat = w.toNat % 16 := by simp [nibble4]

theorem toNat_fieldNn (w : Word) : (fieldNn w).toNat = w.toNat % 256 := by simp [fieldNn]

theorem toNat_fieldNnn (w : Word) : (fieldNnn w).toNat = w.toNat % 4096 := by simp [fieldNnn]

/-! ## The fields of an encoded word -/

@[simp] theorem nibble1_wordNNN (op : Nibble) (nnn : Addr12) : nibble1 (wordNNN op nnn) = op := by
  have := nnn.isLt
  apply BitVec.eq_of_toNat_eq; rw [toNat_nibble1, toNat_wordNNN]; omega

@[simp] theorem fieldNnn_wordNNN (op : Nibble) (nnn : Addr12) : fieldNnn (wordNNN op nnn) = nnn := by
  have := nnn.isLt
  apply BitVec.eq_of_toNat_eq; rw [toNat_fieldNnn, toNat_wordNNN]; omega

@[simp] theorem nibble1_wordXNN (op x : Nibble) (nn : Byte) : nibble1 (wordXNN op x nn) = op := by
  have := nn.isLt; have := x.isLt
  apply BitVec.eq_of_toNat_eq; rw [toNat_nibble1, toNat_wordXNN]; omega

@[simp] theorem nibble2_wordXNN (op x : Nibble) (nn : Byte) : nibble2 (wordXNN op x nn) = x := by
  have := nn.isLt; have := x.isLt
  apply BitVec.eq_of_toNat_eq; rw [toNat_nibble2, toNat_wordXNN]; omega

@[simp] theorem fieldNn_wordXNN (op x : Nibble) (nn : Byte) : fieldNn (wordXNN op x nn) = nn := by
  have := nn.isLt; have := x.isLt
  apply BitVec.eq_of_toNat_eq; rw [toNat_fieldNn, toNat_wordXNN]; omega

@[simp] theorem nibble1_wordXYN (op x y n : Nibble) : nibble1 (wordXYN op x y n) = op := by
  have := n.isLt; have := y.isLt; have := x.isLt
  apply BitVec.eq_of_toNat_eq; rw [toNat_nibble1, toNat_wordXYN]; omega

@[simp] theorem nibble2_wordXYN (op x y n : Nibble) : nibble2 (wordXYN op x y n) = x := by
  have := n.isLt; have := y.isLt; have := x.isLt
  apply BitVec.eq_of_toNat_eq; rw [toNat_nibble2, toNat_wordXYN]; omega

@[simp] theorem nibble3_wordXYN (op x y n : Nibble) : nibble3 (wordXYN op x y n) = y := by
  have := n.isLt; have := y.isLt; have := x.isLt
  apply BitVec.eq_of_toNat_eq; rw [toNat_nibble3, toNat_wordXYN]; omega

@[simp] theorem nibble4_wordXYN (op x y n : Nibble) : nibble4 (wordXYN op x y n) = n := by
  have := n.isLt; have := y.isLt; have := x.isLt
  apply BitVec.eq_of_toNat_eq; rw [toNat_nibble4, toNat_wordXYN]; omega

/-! ## A word from its fields -/

theorem wordNNN_fields (w : Word) : wordNNN (nibble1 w) (fieldNnn w) = w := by
  apply BitVec.eq_of_toNat_eq; rw [toNat_wordNNN, toNat_nibble1, toNat_fieldNnn]; omega

theorem wordXNN_fields (w : Word) : wordXNN (nibble1 w) (nibble2 w) (fieldNn w) = w := by
  apply BitVec.eq_of_toNat_eq; rw [toNat_wordXNN, toNat_nibble1, toNat_nibble2, toNat_fieldNn]; omega

theorem wordXYN_fields (w : Word) : wordXYN (nibble1 w) (nibble2 w) (nibble3 w) (nibble4 w) = w := by
  apply BitVec.eq_of_toNat_eq
  rw [toNat_wordXYN, toNat_nibble1, toNat_nibble2, toNat_nibble3, toNat_nibble4]; omega

/-! ## The two bytes of a word -/

theorem wordOfBytes_eq (hi lo : Byte) : wordOfBytes hi lo = BitVec.ofNat 16 (hi.toNat * 256 + lo.toNat) := by
  have := hi.isLt; have := lo.isLt
  apply BitVec.eq_of_toNat_eq
  rw [BitVec.toNat_ofNat, Nat.mod_eq_of_lt (by omega)]
  exact toNat_append_eq hi lo

theorem wordOfBytes_highByte_lowByte (w : Word) : wordOfBytes (highByte w) (lowByte w) = w := by
  have := w.isLt
  apply BitVec.eq_of_toNat_eq
  rw [wordOfBytes_eq, BitVec.toNat_ofNat]
  simp [highByte, lowByte, Nat.shiftRight_eq_div_pow]; omega

end Sys2Proof
end

