-- ==== Sys2Proof/Laws/State.lean ====
section
/-! SUPPORT. For each update of the state, one lemma per field, so that no proof unfolds a record update. -/

namespace Sys2Proof.Machine

/-! ## State.setV -/

@[simp] theorem State.setV_mem (s : State) (x : Nibble) (b : Byte) : (s.setV x b).mem = s.mem := rfl
@[simp] theorem State.setV_v (s : State) (x : Nibble) (b : Byte) : (s.setV x b).v = s.v.set x.toNat b x.isLt := rfl
@[simp] theorem State.setV_i (s : State) (x : Nibble) (b : Byte) : (s.setV x b).i = s.i := rfl
@[simp] theorem State.setV_pc (s : State) (x : Nibble) (b : Byte) : (s.setV x b).pc = s.pc := rfl
@[simp] theorem State.setV_stack (s : State) (x : Nibble) (b : Byte) : (s.setV x b).stack = s.stack := rfl
@[simp] theorem State.setV_sp (s : State) (x : Nibble) (b : Byte) : (s.setV x b).sp = s.sp := rfl
@[simp] theorem State.setV_px (s : State) (x : Nibble) (b : Byte) : (s.setV x b).px = s.px := rfl
@[simp] theorem State.setV_key (s : State) (x : Nibble) (b : Byte) : (s.setV x b).key = s.key := rfl
@[simp] theorem State.setV_dt (s : State) (x : Nibble) (b : Byte) : (s.setV x b).dt = s.dt := rfl
@[simp] theorem State.setV_st (s : State) (x : Nibble) (b : Byte) : (s.setV x b).st = s.st := rfl
@[simp] theorem State.setV_waiting (s : State) (x : Nibble) (b : Byte) : (s.setV x b).waiting = s.waiting := rfl
@[simp] theorem State.setV_waitX (s : State) (x : Nibble) (b : Byte) : (s.setV x b).waitX = s.waitX := rfl
@[simp] theorem State.setV_keyEvent (s : State) (x : Nibble) (b : Byte) : (s.setV x b).keyEvent = s.keyEvent := rfl
@[simp] theorem State.setV_fault (s : State) (x : Nibble) (b : Byte) : (s.setV x b).fault = s.fault := rfl
@[simp] theorem State.setV_faultWord (s : State) (x : Nibble) (b : Byte) : (s.setV x b).faultWord = s.faultWord := rfl
@[simp] theorem State.setV_params (s : State) (x : Nibble) (b : Byte) : (s.setV x b).params = s.params := rfl
@[simp] theorem State.setV_draws (s : State) (x : Nibble) (b : Byte) : (s.setV x b).draws = s.draws := rfl

/-! ## State.setI -/

@[simp] theorem State.setI_mem (s : State) (w : Word) : (s.setI w).mem = s.mem := rfl
@[simp] theorem State.setI_v (s : State) (w : Word) : (s.setI w).v = s.v := rfl
@[simp] theorem State.setI_i (s : State) (w : Word) : (s.setI w).i = w := rfl
@[simp] theorem State.setI_pc (s : State) (w : Word) : (s.setI w).pc = s.pc := rfl
@[simp] theorem State.setI_stack (s : State) (w : Word) : (s.setI w).stack = s.stack := rfl
@[simp] theorem State.setI_sp (s : State) (w : Word) : (s.setI w).sp = s.sp := rfl
@[simp] theorem State.setI_px (s : State) (w : Word) : (s.setI w).px = s.px := rfl
@[simp] theorem State.setI_key (s : State) (w : Word) : (s.setI w).key = s.key := rfl
@[simp] theorem State.setI_dt (s : State) (w : Word) : (s.setI w).dt = s.dt := rfl
@[simp] theorem State.setI_st (s : State) (w : Word) : (s.setI w).st = s.st := rfl
@[simp] theorem State.setI_waiting (s : State) (w : Word) : (s.setI w).waiting = s.waiting := rfl
@[simp] theorem State.setI_waitX (s : State) (w : Word) : (s.setI w).waitX = s.waitX := rfl
@[simp] theorem State.setI_keyEvent (s : State) (w : Word) : (s.setI w).keyEvent = s.keyEvent := rfl
@[simp] theorem State.setI_fault (s : State) (w : Word) : (s.setI w).fault = s.fault := rfl
@[simp] theorem State.setI_faultWord (s : State) (w : Word) : (s.setI w).faultWord = s.faultWord := rfl
@[simp] theorem State.setI_params (s : State) (w : Word) : (s.setI w).params = s.params := rfl
@[simp] theorem State.setI_draws (s : State) (w : Word) : (s.setI w).draws = s.draws := rfl

/-! ## State.setPc -/

@[simp] theorem State.setPc_mem (s : State) (w : Word) : (s.setPc w).mem = s.mem := rfl
@[simp] theorem State.setPc_v (s : State) (w : Word) : (s.setPc w).v = s.v := rfl
@[simp] theorem State.setPc_i (s : State) (w : Word) : (s.setPc w).i = s.i := rfl
@[simp] theorem State.setPc_pc (s : State) (w : Word) : (s.setPc w).pc = w := rfl
@[simp] theorem State.setPc_stack (s : State) (w : Word) : (s.setPc w).stack = s.stack := rfl
@[simp] theorem State.setPc_sp (s : State) (w : Word) : (s.setPc w).sp = s.sp := rfl
@[simp] theorem State.setPc_px (s : State) (w : Word) : (s.setPc w).px = s.px := rfl
@[simp] theorem State.setPc_key (s : State) (w : Word) : (s.setPc w).key = s.key := rfl
@[simp] theorem State.setPc_dt (s : State) (w : Word) : (s.setPc w).dt = s.dt := rfl
@[simp] theorem State.setPc_st (s : State) (w : Word) : (s.setPc w).st = s.st := rfl
@[simp] theorem State.setPc_waiting (s : State) (w : Word) : (s.setPc w).waiting = s.waiting := rfl
@[simp] theorem State.setPc_waitX (s : State) (w : Word) : (s.setPc w).waitX = s.waitX := rfl
@[simp] theorem State.setPc_keyEvent (s : State) (w : Word) : (s.setPc w).keyEvent = s.keyEvent := rfl
@[simp] theorem State.setPc_fault (s : State) (w : Word) : (s.setPc w).fault = s.fault := rfl
@[simp] theorem State.setPc_faultWord (s : State) (w : Word) : (s.setPc w).faultWord = s.faultWord := rfl
@[simp] theorem State.setPc_params (s : State) (w : Word) : (s.setPc w).params = s.params := rfl
@[simp] theorem State.setPc_draws (s : State) (w : Word) : (s.setPc w).draws = s.draws := rfl

/-! ## State.setDt -/

@[simp] theorem State.setDt_mem (s : State) (b : Byte) : (s.setDt b).mem = s.mem := rfl
@[simp] theorem State.setDt_v (s : State) (b : Byte) : (s.setDt b).v = s.v := rfl
@[simp] theorem State.setDt_i (s : State) (b : Byte) : (s.setDt b).i = s.i := rfl
@[simp] theorem State.setDt_pc (s : State) (b : Byte) : (s.setDt b).pc = s.pc := rfl
@[simp] theorem State.setDt_stack (s : State) (b : Byte) : (s.setDt b).stack = s.stack := rfl
@[simp] theorem State.setDt_sp (s : State) (b : Byte) : (s.setDt b).sp = s.sp := rfl
@[simp] theorem State.setDt_px (s : State) (b : Byte) : (s.setDt b).px = s.px := rfl
@[simp] theorem State.setDt_key (s : State) (b : Byte) : (s.setDt b).key = s.key := rfl
@[simp] theorem State.setDt_dt (s : State) (b : Byte) : (s.setDt b).dt = b := rfl
@[simp] theorem State.setDt_st (s : State) (b : Byte) : (s.setDt b).st = s.st := rfl
@[simp] theorem State.setDt_waiting (s : State) (b : Byte) : (s.setDt b).waiting = s.waiting := rfl
@[simp] theorem State.setDt_waitX (s : State) (b : Byte) : (s.setDt b).waitX = s.waitX := rfl
@[simp] theorem State.setDt_keyEvent (s : State) (b : Byte) : (s.setDt b).keyEvent = s.keyEvent := rfl
@[simp] theorem State.setDt_fault (s : State) (b : Byte) : (s.setDt b).fault = s.fault := rfl
@[simp] theorem State.setDt_faultWord (s : State) (b : Byte) : (s.setDt b).faultWord = s.faultWord := rfl
@[simp] theorem State.setDt_params (s : State) (b : Byte) : (s.setDt b).params = s.params := rfl
@[simp] theorem State.setDt_draws (s : State) (b : Byte) : (s.setDt b).draws = s.draws := rfl

/-! ## State.setSt -/

@[simp] theorem State.setSt_mem (s : State) (b : Byte) : (s.setSt b).mem = s.mem := rfl
@[simp] theorem State.setSt_v (s : State) (b : Byte) : (s.setSt b).v = s.v := rfl
@[simp] theorem State.setSt_i (s : State) (b : Byte) : (s.setSt b).i = s.i := rfl
@[simp] theorem State.setSt_pc (s : State) (b : Byte) : (s.setSt b).pc = s.pc := rfl
@[simp] theorem State.setSt_stack (s : State) (b : Byte) : (s.setSt b).stack = s.stack := rfl
@[simp] theorem State.setSt_sp (s : State) (b : Byte) : (s.setSt b).sp = s.sp := rfl
@[simp] theorem State.setSt_px (s : State) (b : Byte) : (s.setSt b).px = s.px := rfl
@[simp] theorem State.setSt_key (s : State) (b : Byte) : (s.setSt b).key = s.key := rfl
@[simp] theorem State.setSt_dt (s : State) (b : Byte) : (s.setSt b).dt = s.dt := rfl
@[simp] theorem State.setSt_st (s : State) (b : Byte) : (s.setSt b).st = b := rfl
@[simp] theorem State.setSt_waiting (s : State) (b : Byte) : (s.setSt b).waiting = s.waiting := rfl
@[simp] theorem State.setSt_waitX (s : State) (b : Byte) : (s.setSt b).waitX = s.waitX := rfl
@[simp] theorem State.setSt_keyEvent (s : State) (b : Byte) : (s.setSt b).keyEvent = s.keyEvent := rfl
@[simp] theorem State.setSt_fault (s : State) (b : Byte) : (s.setSt b).fault = s.fault := rfl
@[simp] theorem State.setSt_faultWord (s : State) (b : Byte) : (s.setSt b).faultWord = s.faultWord := rfl
@[simp] theorem State.setSt_params (s : State) (b : Byte) : (s.setSt b).params = s.params := rfl
@[simp] theorem State.setSt_draws (s : State) (b : Byte) : (s.setSt b).draws = s.draws := rfl

/-! ## State.advancePc -/

@[simp] theorem State.advancePc_mem (s : State) : (s.advancePc).mem = s.mem := rfl
@[simp] theorem State.advancePc_v (s : State) : (s.advancePc).v = s.v := rfl
@[simp] theorem State.advancePc_i (s : State) : (s.advancePc).i = s.i := rfl
@[simp] theorem State.advancePc_pc (s : State) : (s.advancePc).pc = s.pc + 2 := rfl
@[simp] theorem State.advancePc_stack (s : State) : (s.advancePc).stack = s.stack := rfl
@[simp] theorem State.advancePc_sp (s : State) : (s.advancePc).sp = s.sp := rfl
@[simp] theorem State.advancePc_px (s : State) : (s.advancePc).px = s.px := rfl
@[simp] theorem State.advancePc_key (s : State) : (s.advancePc).key = s.key := rfl
@[simp] theorem State.advancePc_dt (s : State) : (s.advancePc).dt = s.dt := rfl
@[simp] theorem State.advancePc_st (s : State) : (s.advancePc).st = s.st := rfl
@[simp] theorem State.advancePc_waiting (s : State) : (s.advancePc).waiting = s.waiting := rfl
@[simp] theorem State.advancePc_waitX (s : State) : (s.advancePc).waitX = s.waitX := rfl
@[simp] theorem State.advancePc_keyEvent (s : State) : (s.advancePc).keyEvent = s.keyEvent := rfl
@[simp] theorem State.advancePc_fault (s : State) : (s.advancePc).fault = s.fault := rfl
@[simp] theorem State.advancePc_faultWord (s : State) : (s.advancePc).faultWord = s.faultWord := rfl
@[simp] theorem State.advancePc_params (s : State) : (s.advancePc).params = s.params := rfl
@[simp] theorem State.advancePc_draws (s : State) : (s.advancePc).draws = s.draws := rfl

/-! ## State.writeByte -/

@[simp] theorem State.writeByte_mem (s : State) (a : Nat) (b : Byte) : (s.writeByte a b).mem = Memory.write s.params.font s.mem a b := rfl
@[simp] theorem State.writeByte_v (s : State) (a : Nat) (b : Byte) : (s.writeByte a b).v = s.v := rfl
@[simp] theorem State.writeByte_i (s : State) (a : Nat) (b : Byte) : (s.writeByte a b).i = s.i := rfl
@[simp] theorem State.writeByte_pc (s : State) (a : Nat) (b : Byte) : (s.writeByte a b).pc = s.pc := rfl
@[simp] theorem State.writeByte_stack (s : State) (a : Nat) (b : Byte) : (s.writeByte a b).stack = s.stack := rfl
@[simp] theorem State.writeByte_sp (s : State) (a : Nat) (b : Byte) : (s.writeByte a b).sp = s.sp := rfl
@[simp] theorem State.writeByte_px (s : State) (a : Nat) (b : Byte) : (s.writeByte a b).px = s.px := rfl
@[simp] theorem State.writeByte_key (s : State) (a : Nat) (b : Byte) : (s.writeByte a b).key = s.key := rfl
@[simp] theorem State.writeByte_dt (s : State) (a : Nat) (b : Byte) : (s.writeByte a b).dt = s.dt := rfl
@[simp] theorem State.writeByte_st (s : State) (a : Nat) (b : Byte) : (s.writeByte a b).st = s.st := rfl
@[simp] theorem State.writeByte_waiting (s : State) (a : Nat) (b : Byte) : (s.writeByte a b).waiting = s.waiting := rfl
@[simp] theorem State.writeByte_waitX (s : State) (a : Nat) (b : Byte) : (s.writeByte a b).waitX = s.waitX := rfl
@[simp] theorem State.writeByte_keyEvent (s : State) (a : Nat) (b : Byte) : (s.writeByte a b).keyEvent = s.keyEvent := rfl
@[simp] theorem State.writeByte_fault (s : State) (a : Nat) (b : Byte) : (s.writeByte a b).fault = s.fault := rfl
@[simp] theorem State.writeByte_faultWord (s : State) (a : Nat) (b : Byte) : (s.writeByte a b).faultWord = s.faultWord := rfl
@[simp] theorem State.writeByte_params (s : State) (a : Nat) (b : Byte) : (s.writeByte a b).params = s.params := rfl
@[simp] theorem State.writeByte_draws (s : State) (a : Nat) (b : Byte) : (s.writeByte a b).draws = s.draws := rfl

/-! ## State.beginKeyWait -/

@[simp] theorem State.beginKeyWait_mem (s : State) (x : Nibble) : (s.beginKeyWait x).mem = s.mem := rfl
@[simp] theorem State.beginKeyWait_v (s : State) (x : Nibble) : (s.beginKeyWait x).v = s.v := rfl
@[simp] theorem State.beginKeyWait_i (s : State) (x : Nibble) : (s.beginKeyWait x).i = s.i := rfl
@[simp] theorem State.beginKeyWait_pc (s : State) (x : Nibble) : (s.beginKeyWait x).pc = s.pc - 2 := rfl
@[simp] theorem State.beginKeyWait_stack (s : State) (x : Nibble) : (s.beginKeyWait x).stack = s.stack := rfl
@[simp] theorem State.beginKeyWait_sp (s : State) (x : Nibble) : (s.beginKeyWait x).sp = s.sp := rfl
@[simp] theorem State.beginKeyWait_px (s : State) (x : Nibble) : (s.beginKeyWait x).px = s.px := rfl
@[simp] theorem State.beginKeyWait_key (s : State) (x : Nibble) : (s.beginKeyWait x).key = s.key := rfl
@[simp] theorem State.beginKeyWait_dt (s : State) (x : Nibble) : (s.beginKeyWait x).dt = s.dt := rfl
@[simp] theorem State.beginKeyWait_st (s : State) (x : Nibble) : (s.beginKeyWait x).st = s.st := rfl
@[simp] theorem State.beginKeyWait_waiting (s : State) (x : Nibble) : (s.beginKeyWait x).waiting = true := rfl
@[simp] theorem State.beginKeyWait_waitX (s : State) (x : Nibble) : (s.beginKeyWait x).waitX = x := rfl
@[simp] theorem State.beginKeyWait_keyEvent (s : State) (x : Nibble) : (s.beginKeyWait x).keyEvent = none := rfl
@[simp] theorem State.beginKeyWait_fault (s : State) (x : Nibble) : (s.beginKeyWait x).fault = s.fault := rfl
@[simp] theorem State.beginKeyWait_faultWord (s : State) (x : Nibble) : (s.beginKeyWait x).faultWord = s.faultWord := rfl
@[simp] theorem State.beginKeyWait_params (s : State) (x : Nibble) : (s.beginKeyWait x).params = s.params := rfl
@[simp] theorem State.beginKeyWait_draws (s : State) (x : Nibble) : (s.beginKeyWait x).draws = s.draws := rfl

/-! ## State.loadBlock -/

@[simp] theorem State.loadBlock_mem (s : State) (x : Nibble) (a : Nat) : (s.loadBlock x a).mem = s.mem := rfl
@[simp] theorem State.loadBlock_v (s : State) (x : Nibble) (a : Nat) : (s.loadBlock x a).v = Vector.ofFn fun k : Fin 16 => if k.val ≤ x.toNat then s.readByte (a + k.val) else s.v[k] := rfl
@[simp] theorem State.loadBlock_i (s : State) (x : Nibble) (a : Nat) : (s.loadBlock x a).i = s.i := rfl
@[simp] theorem State.loadBlock_pc (s : State) (x : Nibble) (a : Nat) : (s.loadBlock x a).pc = s.pc := rfl
@[simp] theorem State.loadBlock_stack (s : State) (x : Nibble) (a : Nat) : (s.loadBlock x a).stack = s.stack := rfl
@[simp] theorem State.loadBlock_sp (s : State) (x : Nibble) (a : Nat) : (s.loadBlock x a).sp = s.sp := rfl
@[simp] theorem State.loadBlock_px (s : State) (x : Nibble) (a : Nat) : (s.loadBlock x a).px = s.px := rfl
@[simp] theorem State.loadBlock_key (s : State) (x : Nibble) (a : Nat) : (s.loadBlock x a).key = s.key := rfl
@[simp] theorem State.loadBlock_dt (s : State) (x : Nibble) (a : Nat) : (s.loadBlock x a).dt = s.dt := rfl
@[simp] theorem State.loadBlock_st (s : State) (x : Nibble) (a : Nat) : (s.loadBlock x a).st = s.st := rfl
@[simp] theorem State.loadBlock_waiting (s : State) (x : Nibble) (a : Nat) : (s.loadBlock x a).waiting = s.waiting := rfl
@[simp] theorem State.loadBlock_waitX (s : State) (x : Nibble) (a : Nat) : (s.loadBlock x a).waitX = s.waitX := rfl
@[simp] theorem State.loadBlock_keyEvent (s : State) (x : Nibble) (a : Nat) : (s.loadBlock x a).keyEvent = s.keyEvent := rfl
@[simp] theorem State.loadBlock_fault (s : State) (x : Nibble) (a : Nat) : (s.loadBlock x a).fault = s.fault := rfl
@[simp] theorem State.loadBlock_faultWord (s : State) (x : Nibble) (a : Nat) : (s.loadBlock x a).faultWord = s.faultWord := rfl
@[simp] theorem State.loadBlock_params (s : State) (x : Nibble) (a : Nat) : (s.loadBlock x a).params = s.params := rfl
@[simp] theorem State.loadBlock_draws (s : State) (x : Nibble) (a : Nat) : (s.loadBlock x a).draws = s.draws := rfl

/-! ## State.skipIf -/

@[simp] theorem State.skipIf_mem (s : State) (c : Bool) : (s.skipIf c).mem = s.mem := by cases c <;> rfl
@[simp] theorem State.skipIf_v (s : State) (c : Bool) : (s.skipIf c).v = s.v := by cases c <;> rfl
@[simp] theorem State.skipIf_i (s : State) (c : Bool) : (s.skipIf c).i = s.i := by cases c <;> rfl
@[simp] theorem State.skipIf_pc (s : State) (c : Bool) : (s.skipIf c).pc = if c then s.pc + 2 else s.pc := by
  cases c <;> rfl
@[simp] theorem State.skipIf_stack (s : State) (c : Bool) : (s.skipIf c).stack = s.stack := by cases c <;> rfl
@[simp] theorem State.skipIf_sp (s : State) (c : Bool) : (s.skipIf c).sp = s.sp := by cases c <;> rfl
@[simp] theorem State.skipIf_px (s : State) (c : Bool) : (s.skipIf c).px = s.px := by cases c <;> rfl
@[simp] theorem State.skipIf_key (s : State) (c : Bool) : (s.skipIf c).key = s.key := by cases c <;> rfl
@[simp] theorem State.skipIf_dt (s : State) (c : Bool) : (s.skipIf c).dt = s.dt := by cases c <;> rfl
@[simp] theorem State.skipIf_st (s : State) (c : Bool) : (s.skipIf c).st = s.st := by cases c <;> rfl
@[simp] theorem State.skipIf_waiting (s : State) (c : Bool) : (s.skipIf c).waiting = s.waiting := by cases c <;> rfl
@[simp] theorem State.skipIf_waitX (s : State) (c : Bool) : (s.skipIf c).waitX = s.waitX := by cases c <;> rfl
@[simp] theorem State.skipIf_keyEvent (s : State) (c : Bool) : (s.skipIf c).keyEvent = s.keyEvent := by cases c <;> rfl
@[simp] theorem State.skipIf_fault (s : State) (c : Bool) : (s.skipIf c).fault = s.fault := by cases c <;> rfl
@[simp] theorem State.skipIf_faultWord (s : State) (c : Bool) : (s.skipIf c).faultWord = s.faultWord := by cases c <;> rfl
@[simp] theorem State.skipIf_params (s : State) (c : Bool) : (s.skipIf c).params = s.params := by cases c <;> rfl
@[simp] theorem State.skipIf_draws (s : State) (c : Bool) : (s.skipIf c).draws = s.draws := by cases c <;> rfl

/-! ## State.setFlagAndResult is in Laws/Ops.lean; State.writeBytes and the memory are in Laws/Memory.lean -/

end Sys2Proof.Machine
end

