-- ==== Sys2Proof/Laws/Memory.lean ====
section
/-! SUPPORT. The laws of memory: a read after a write, the canonical form, and the wide stores and reads. -/

namespace Sys2Proof.Machine

variable {font : Vector Byte 80}

/-! ## The canonical form -/

theorem Memory.wfFrom_mono {lo lo' : Nat} {m : Memory} (hle : lo' ≤ lo) (h : Memory.wfFrom font lo m = true) :
    Memory.wfFrom font lo' m = true := by
  cases m with
  | nil => rfl
  | cons c m =>
    simp only [Memory.wfFrom, Bool.and_eq_true, decide_eq_true_eq] at h ⊢
    exact ⟨⟨⟨by omega, h.1.1.2⟩, h.1.2⟩, h.2⟩

/-- An address below every listed one reads as its reset content. -/
theorem Memory.read_of_lt {lo a : Nat} {m : Memory} (h : Memory.wfFrom font lo m = true) (ha : a < lo) :
    Memory.read font m a = Memory.resetByte font a := by
  induction m generalizing lo with
  | nil => rfl
  | cons c m ih =>
    simp only [Memory.wfFrom, Bool.and_eq_true, decide_eq_true_eq] at h
    rw [Memory.read, if_neg (by omega)]
    exact ih h.2 (by omega)

theorem Memory.wfFrom_insert {lo a : Nat} {b : Byte} {m : Memory} (h : Memory.wfFrom font lo m = true) (hlo : lo ≤ a)
    (ha : a < memSize) (hb : b ≠ Memory.resetByte font a) : Memory.wfFrom font lo (Memory.insert a b m) = true := by
  induction m generalizing lo with
  | nil => simp [Memory.insert, Memory.wfFrom, hlo, ha, hb]
  | cons c m ih =>
    simp only [Memory.wfFrom, Bool.and_eq_true, decide_eq_true_eq] at h
    obtain ⟨⟨⟨h1, h2⟩, h3⟩, h4⟩ := h
    rw [Memory.insert]
    split
    · simp [Memory.wfFrom, hlo, ha, hb, h2, h3, h4]; omega
    · split
      · subst_vars; simp [Memory.wfFrom, hlo, ha, hb, h4]
      · simp [Memory.wfFrom, h1, h2, h3, ih h4 (by omega)]

theorem Memory.wfFrom_remove {lo a : Nat} {m : Memory} (h : Memory.wfFrom font lo m = true) :
    Memory.wfFrom font lo (Memory.remove a m) = true := by
  induction m generalizing lo with
  | nil => rfl
  | cons c m ih =>
    simp only [Memory.wfFrom, Bool.and_eq_true, decide_eq_true_eq] at h
    obtain ⟨⟨⟨h1, h2⟩, h3⟩, h4⟩ := h
    rw [Memory.remove]
    split
    · exact Memory.wfFrom_mono (by omega) h4
    · simp [Memory.wfFrom, h1, h2, h3, ih h4]

/-- A store inside Memory keeps the canonical form. -/
theorem Memory.wf_write {m : Memory} {a : Nat} {b : Byte} (h : Memory.wf font m = true) (ha : a < memSize) :
    Memory.wf font (Memory.write font m a b) = true := by
  rw [Memory.write]
  split
  · exact Memory.wfFrom_remove h
  · exact Memory.wfFrom_insert h (by omega) ha ‹_›

/-! ## Reading after writing -/

theorem Memory.read_insert (m : Memory) (a a' : Nat) (b : Byte) :
    Memory.read font (Memory.insert a b m) a' = if a' = a then b else Memory.read font m a' := by
  induction m with
  | nil => simp [Memory.insert, Memory.read]
  | cons c m ih =>
    rw [Memory.insert]
    split
    · simp [Memory.read]
    · split
      · subst_vars; simp only [Memory.read]; split <;> rfl
      · simp only [Memory.read, ih]; split <;> split <;> first | rfl | omega

theorem Memory.read_remove {lo : Nat} {m : Memory} (h : Memory.wfFrom font lo m = true) (a a' : Nat) :
    Memory.read font (Memory.remove a m) a' = if a' = a then Memory.resetByte font a else Memory.read font m a' := by
  induction m generalizing lo with
  | nil => simp only [Memory.remove, Memory.read]; split <;> simp_all
  | cons c m ih =>
    simp only [Memory.wfFrom, Bool.and_eq_true, decide_eq_true_eq] at h
    rw [Memory.remove]
    split
    · subst_vars
      simp only [Memory.read]
      split
      · subst_vars; exact Memory.read_of_lt h.2 (by omega)
      · rfl
    · simp only [Memory.read, ih h.2]; split <;> split <;> first | rfl | omega

/-- A read after a store. -/
theorem Memory.read_write {m : Memory} (h : Memory.wf font m = true) (a a' : Nat) (b : Byte) :
    Memory.read font (Memory.write font m a b) a' = if a' = a then b else Memory.read font m a' := by
  rw [Memory.write]
  split
  · subst_vars; exact Memory.read_remove h a a'
  · exact Memory.read_insert m a a' b

/-- A store leaves every other address alone, in any list at all. -/
theorem Memory.read_write_of_ne (m : Memory) {a a' : Nat} (b : Byte) (hne : a' ≠ a) :
    Memory.read font (Memory.write font m a b) a' = Memory.read font m a' := by
  rw [Memory.write]
  split
  · induction m with
    | nil => rfl
    | cons c m ih =>
      rw [Memory.remove]
      split
      · subst_vars; rw [Memory.read, if_neg hne]
      · simp only [Memory.read, ih]
  · rw [Memory.read_insert, if_neg hne]

/-! ## In a state -/

theorem State.readByte_writeByte {s : State} (h : Memory.wf s.params.font s.mem = true) (a a' : Nat) (b : Byte) :
    (s.writeByte a b).readByte a' = if a' = a then b else s.readByte a' := Memory.read_write h a a' b

theorem State.wf_writeByte {s : State} (h : Memory.wf s.params.font s.mem = true) {a : Nat} (b : Byte)
    (ha : a < memSize) : Memory.wf (s.writeByte a b).params.font (s.writeByte a b).mem = true := Memory.wf_write h ha

/-- A wide store changes the memory only. -/
theorem State.writeBytes_eq (s : State) (a : Nat) (bs : List Byte) :
    s.writeBytes a bs = { s with mem := (s.writeBytes a bs).mem } := by
  induction bs generalizing s a with
  | nil => rfl
  | cons b bs ih => rw [State.writeBytes, ih]; rfl

theorem State.wf_writeBytes {s : State} (h : Memory.wf s.params.font s.mem = true) {a : Nat} (bs : List Byte)
    (ha : bs = [] ∨ a + bs.length ≤ memSize) :
    Memory.wf (s.writeBytes a bs).params.font (s.writeBytes a bs).mem = true := by
  induction bs generalizing s a with
  | nil => exact h
  | cons b bs ih =>
    simp only [List.length_cons, reduceCtorEq, false_or] at ha
    exact ih (State.wf_writeByte h b (by omega)) (by
      cases bs with
      | nil => exact .inl rfl
      | cons => exact .inr (by omega))

/-- A read after a wide store: the byte stored there, or the byte that was there. -/
theorem State.readByte_writeBytes {s : State} (h : Memory.wf s.params.font s.mem = true) {a : Nat} (bs : List Byte)
    (ha : bs = [] ∨ a + bs.length ≤ memSize) (a' : Nat) :
    (s.writeBytes a bs).readByte a' = if a ≤ a' then (bs[a' - a]?).getD (s.readByte a') else s.readByte a' := by
  induction bs generalizing s a with
  | nil => simp [State.writeBytes]
  | cons b bs ih =>
    simp only [List.length_cons, reduceCtorEq, false_or] at ha
    rw [State.writeBytes, ih (State.wf_writeByte h b (by omega)) (by
      cases bs with
      | nil => exact .inl rfl
      | cons => exact .inr (by omega)), State.readByte_writeByte h]
    rcases Nat.lt_trichotomy a' a with hlt | rfl | hgt
    · rw [if_neg (by omega), if_neg (by omega), if_neg (by omega)]
    · simp
    · obtain ⟨d, rfl⟩ : ∃ d, a' = a + 1 + d := ⟨a' - (a + 1), by omega⟩
      have e : (a + 1 + d = a) = False := by simp; omega
      have l₁ : (a + 1 ≤ a + 1 + d) = True := by simp
      have l₂ : (a ≤ a + 1 + d) = True := by simp; omega
      simp only [e, l₁, l₂, if_true, if_false]
      rw [show a + 1 + d - a = d + 1 by omega, show a + 1 + d - (a + 1) = d by omega, List.getElem?_cons_succ]

/-- A wide store leaves every address outside its bytes alone, in any state at all. -/
theorem State.readByte_writeBytes_of_outside (s : State) {a a' : Nat} {bs : List Byte}
    (h : a' < a ∨ a + bs.length ≤ a') : (s.writeBytes a bs).readByte a' = s.readByte a' := by
  induction bs generalizing s a with
  | nil => rfl
  | cons b bs ih =>
    simp only [List.length_cons] at h
    rw [State.writeBytes, ih (s.writeByte a b) (by omega)]
    exact Memory.read_write_of_ne s.mem b (by omega)

@[simp] theorem State.length_readBytes (s : State) (a n : Nat) : (s.readBytes a n).length = n := by
  induction n generalizing a with
  | zero => rfl
  | succ n ih => simp [State.readBytes, ih]

theorem State.getElem_readBytes (s : State) (a n k : Nat) (h : k < (s.readBytes a n).length) :
    (s.readBytes a n)[k] = s.readByte (a + k) := by
  induction n generalizing a k with
  | zero => simp at h
  | succ n ih =>
    cases k with
    | zero => rfl
    | succ k =>
      simp only [State.readBytes, List.getElem_cons_succ]
      rw [ih]; congr 1; omega

theorem rangeInMemory_iff (a n : Nat) : rangeInMemory a n = true ↔ n = 0 ∨ a + n ≤ 4096 := by
  exact decide_eq_true_iff

theorem reset_memory_wf : Memory.wf State.reset.params.font State.reset.mem = true := rfl

end Sys2Proof.Machine
end

