-- ==== Sys2Proof/Laws/Ops.lean ====
section
/-! SUPPORT. What each shared operation can do, once: registers, flags, errors, the fetch, the call stack, the key wait. -/

namespace Sys2Proof.Machine

/-! ## Registers and flags -/

theorem State.getV_setV (s : State) (x y : Nibble) (b : Byte) : (s.setV x b).getV y = if y = x then b else s.getV y := by
  simp only [State.getV, State.setV, Vector.getElem_set, BitVec.toNat_inj]
  split <;> split <;> simp_all

@[simp] theorem State.getV_setV_self (s : State) (x : Nibble) (b : Byte) : (s.setV x b).getV x = b := by
  simp [State.getV_setV]

/-- The two writes of a flag-writing instruction. -/
theorem State.getV_setFlagAndResult (s : State) (x y : Nibble) (flag result : Byte) :
    (s.setFlagAndResult x flag result).getV y =
      match s.params.vfWriteOrder with
      | .resultLast => if y = x then result else if y = 15 then flag else s.getV y
      | .flagLast => if y = 15 then flag else if y = x then result else s.getV y := by
  unfold State.setFlagAndResult
  cases s.params.vfWriteOrder <;> simp only [State.getV_setV, vf]

/-- A flag-writing instruction changes the general registers only. -/
theorem State.setFlagAndResult_eq (s : State) (x : Nibble) (flag result : Byte) :
    s.setFlagAndResult x flag result = { s with v := (s.setFlagAndResult x flag result).v } := by
  unfold State.setFlagAndResult
  cases s.params.vfWriteOrder <;> rfl

theorem toNat_flagByte (c : Bool) : (flagByte c).toNat = if c then 1 else 0 := by cases c <;> rfl

theorem toNat_rightBitFlag (b : Byte) : (rightBitFlag b).toNat = b.toNat % 2 := by
  rw [rightBitFlag, BitVec.toNat_and]; exact Nat.and_one_is_mod b.toNat

theorem toNat_leftBitFlag (b : Byte) : (leftBitFlag b).toNat = b.toNat / 128 := by
  have := b.isLt
  rw [leftBitFlag, BitVec.toNat_and, BitVec.toNat_ushiftRight, Nat.shiftRight_eq_div_pow,
    show (1 : Byte).toNat = 1 from rfl, Nat.and_one_is_mod]
  omega

/-! ## Operands -/

theorem toNat_addrImm (nnn : Addr12) : (addrImm nnn).toNat = nnn.toNat := by
  have := nnn.isLt
  simp [addrImm]; omega

theorem toNat_wordOfByte (b : Byte) : (wordOfByte b).toNat = b.toNat := by
  have := b.isLt
  simp [wordOfByte]; omega

theorem toNat_glyphAddr (b : Byte) : (glyphAddr b).toNat = 5 * (b.toNat % 16) := by
  have h : (b &&& 0x0F).toNat = b.toNat % 16 := by
    rw [BitVec.toNat_and]; exact Nat.and_two_pow_sub_one_eq_mod b.toNat 4
  rw [glyphAddr, h, BitVec.toNat_ofNat]; omega

theorem State.getElem?_blockRegs (s : State) (x k : Nibble) :
    (s.blockRegs x)[k.toNat]? = if k.toNat ≤ x.toNat then some (s.getV k) else none := by
  have := k.isLt
  simp only [State.blockRegs, blockSize, List.getElem?_take, State.getV]
  by_cases h : k.toNat ≤ x.toNat
  · rw [if_pos (by omega), if_pos h]; simp [this]
  · rw [if_neg (by omega), if_neg h]

theorem State.length_blockRegs (s : State) (x : Nibble) : (s.blockRegs x).length = x.toNat + 1 := by
  have := x.isLt
  simp [State.blockRegs, blockSize]; omega

theorem State.getV_loadBlock (s : State) (x k : Nibble) (a : Nat) :
    (s.loadBlock x a).getV k = if k.toNat ≤ x.toNat then s.readByte (a + k.toNat) else s.getV k := by
  simp [State.getV]

/-- The key SKP and SKNP test. -/
theorem keyIndex_eq_some_iff (p : Params) (b : Byte) (k : Nibble) :
    keyIndex p b = some k ↔
      (p.keyIndexPolicy = .fault ∧ b.toNat = k.toNat) ∨ (p.keyIndexPolicy = .mask4 ∧ b.toNat % 16 = k.toNat) := by
  have := k.isLt
  unfold keyIndex
  cases p.keyIndexPolicy <;> simp [← BitVec.toNat_inj]
  omega

theorem keyIndex_eq_none_iff (p : Params) (b : Byte) :
    keyIndex p b = none ↔ p.keyIndexPolicy = .fault ∧ b.toNat > 15 := by
  unfold keyIndex
  cases p.keyIndexPolicy <;> simp

/-! ## Errors -/

theorem latches_unimplementedOpcode_iff (p : Params) :
    latches p .unimplementedOpcode = true ↔ p.unimplPolicy = .halt := by
  unfold latches
  cases p.unimplPolicy <;> decide

/-- The code tells the kind, and none from any of them (60_exceptions.md R170). -/
@[simp] theorem errorCode_inj {e f : Option ErrorKind} : errorCode e = errorCode f ↔ e = f := by
  rcases e with _ | (_ | _ | _ | _ | _ | _) <;> rcases f with _ | (_ | _ | _ | _ | _ | _) <;> decide

@[simp] theorem State.faultCode_eq_zero (s : State) : s.faultCode = 0 ↔ s.fault = none :=
  errorCode_inj (f := none)

/-- An error that latches. -/
theorem raise_of_latches {s : State} {kind : ErrorKind} (h : latches s.params kind = true) :
    raise kind s = .next { s with fault := some kind, faultWord := 0 } := by simp [raise, raiseError, h]

theorem raise_memoryOutOfBounds (s : State) :
    raise .memoryOutOfBounds s = .next { s with fault := some .memoryOutOfBounds, faultWord := 0 } := rfl

theorem raise_stackOverflow (s : State) :
    raise .stackOverflow s = .next { s with fault := some .stackOverflow, faultWord := 0 } := rfl

theorem raise_stackUnderflow (s : State) :
    raise .stackUnderflow s = .next { s with fault := some .stackUnderflow, faultWord := 0 } := rfl

theorem raise_invalidKeyIndex (s : State) :
    raise .invalidKeyIndex s = .next { s with fault := some .invalidKeyIndex, faultWord := 0 } := rfl

/-! ## The fetch -/

theorem fetch_of_le {s : State} (h : s.pc.toNat ≤ 4094) : fetch s = some (s.wordAtPc, s.advancePc) := if_pos h

theorem fetch_of_gt {s : State} (h : s.pc.toNat > 4094) : fetch s = none := if_neg (by simp [pcFetchMax]; omega)

/-- Post-fetch `pc` does not wrap. -/
theorem State.toNat_advancePc {s : State} (h : s.pc.toNat ≤ 0x10FE) : s.advancePc.pc.toNat = s.pc.toNat + 2 := by
  simp [BitVec.toNat_add]; omega

/-! ## The call stack -/

theorem State.push_of_lt {s : State} (w : Word) (h : s.sp.val < 16) :
    s.push w = some { s with stack := s.stack.set s.sp.val w h, sp := ⟨s.sp.val + 1, by omega⟩ } := by
  simp [State.push, h]

theorem State.push_of_full {s : State} (w : Word) (h : s.sp.val = 16) : s.push w = none := by simp [State.push, h]

theorem State.pop_of_pos {s : State} (h : 0 < s.sp.val) :
    s.pop = some (s.stack[s.sp.val - 1], { s with sp := ⟨s.sp.val - 1, by omega⟩ }) := by
  rw [State.pop, dif_neg (by omega)]

theorem State.pop_of_empty {s : State} (h : s.sp.val = 0) : s.pop = none := by rw [State.pop, dif_pos h]

/-! ## The key wait -/

theorem State.keyWaitStep_none {s : State} (h : s.keyEvent = none) : s.keyWaitStep = s := by
  simp [State.keyWaitStep, h]

theorem State.keyWaitStep_some {s : State} {k : Nibble} (h : s.keyEvent = some k) :
    s.keyWaitStep =
      { (s.setV s.waitX (k.setWidth 8)).advancePc with waiting := false, keyEvent := none } := by
  simp [State.keyWaitStep, h]

end Sys2Proof.Machine
end

