-- ==== Sys2Proof/Laws/Pixels.lean ====
section
/-! SUPPORT. What drawing a sprite does, pixel by pixel: the pixels of one sprite are distinct (44_display.md R151 (d)), so
each is toggled at most once and the collision can be read off the display found. -/

namespace Sys2Proof.Machine

theorem Display.pixel_toggle (d : Display) (row row' : Fin 32) (col col' : Fin 64) :
    (d.toggle row col).pixel row' col' = (d.pixel row' col' ^^ decide (row' = row ∧ col' = col)) := by
  simp only [Display.pixel, Display.toggle, Fin.getElem_fin, Vector.getElem_set]
  by_cases hr : row = row'
  · subst hr
    by_cases hc : col = col'
    · subst hc; simp
    · have hv : col.val ≠ col'.val := fun h => hc (Fin.ext h)
      have hs : col' ≠ col := fun h => hc h.symm
      simp [hv, hs]
  · have hv : row.val ≠ row'.val := fun h => hr (Fin.ext h)
    have hs : row' ≠ row := fun h => hr h.symm
    simp [hv, hs]

/-- Two displays with equal pixels are equal. -/
theorem Display.ext_pixel {d e : Display} (h : ∀ row col, d.pixel row col = e.pixel row col) : d = e := by
  apply Vector.ext
  intro i hi
  apply Vector.ext
  intro j hj
  exact h ⟨i, hi⟩ ⟨j, hj⟩

@[simp] theorem Display.pixel_blankDisplay (row : Fin 32) (col : Fin 64) : blankDisplay.pixel row col = false := by
  simp [Display.pixel, blankDisplay]

theorem wrapCol_inj {col0 j k : Nat} (hj : j < 64) (hk : k < 64) (h : wrapCol col0 j = wrapCol col0 k) : j = k := by
  simp only [wrapCol, Fin.mk.injEq] at h; omega

theorem wrapRow_inj {row0 j k : Nat} (hj : j < 32) (hk : k < 32) (h : wrapRow row0 j = wrapRow row0 k) : j = k := by
  simp only [wrapRow, Fin.mk.injEq] at h; omega

theorem Drawing.pixel_plot (g : Drawing) (bit : Bool) (row row' : Fin 32) (col col' : Fin 64) :
    (g.plot bit row col).px.pixel row' col' = (g.px.pixel row' col' ^^ (bit && decide (row' = row ∧ col' = col))) := by
  cases bit <;> simp [Drawing.plot, Display.pixel_toggle]

theorem Drawing.hit_plot (g : Drawing) (bit : Bool) (row : Fin 32) (col : Fin 64) :
    (g.plot bit row col).hit = (g.hit || bit && g.px.pixel row col) := by cases bit <;> simp [Drawing.plot]

/-! ## One byte of the sprite -/

/-- A pixel none of the byte's columns falls on is kept. -/
theorem Drawing.pixel_plotByte_of_ne (g : Drawing) (msb : Bool) (b : Byte) (row row' : Fin 32) (col' : Fin 64)
    (col0 k fuel : Nat) (h : ∀ j, k ≤ j → j < k + fuel → ¬ (row' = row ∧ col' = wrapCol col0 j)) :
    (g.plotByte msb b row col0 k fuel).px.pixel row' col' = g.px.pixel row' col' := by
  induction fuel generalizing g k with
  | zero => rfl
  | succ fuel ih =>
    rw [Drawing.plotByte, ih _ _ fun j h1 h2 => h j (by omega) (by omega), Drawing.pixel_plot]
    simp [h k (by omega) (by omega)]

/-- A pixel a column of the byte falls on is toggled when that bit is 1. -/
theorem Drawing.pixel_plotByte (g : Drawing) (msb : Bool) (b : Byte) (row : Fin 32) (col0 k fuel j : Nat)
    (hf : k + fuel ≤ 64) (hk : k ≤ j) (hj : j < k + fuel) :
    (g.plotByte msb b row col0 k fuel).px.pixel row (wrapCol col0 j) =
      (g.px.pixel row (wrapCol col0 j) ^^ spriteBit msb b j) := by
  induction fuel generalizing g k with
  | zero => omega
  | succ fuel ih =>
    rw [Drawing.plotByte]
    rcases Nat.eq_or_lt_of_le hk with rfl | hlt
    · rw [Drawing.pixel_plotByte_of_ne, Drawing.pixel_plot]
      · simp
      · rintro j' h1 h2 ⟨-, h⟩
        have := wrapCol_inj (by omega) (by omega) h
        omega
    · rw [ih _ _ (by omega) (by omega) (by omega), Drawing.pixel_plot]
      have : wrapCol col0 j ≠ wrapCol col0 k := fun h => by
        have := wrapCol_inj (by omega) (by omega) h
        omega
      simp [this]

/-- The byte reports a collision when one of its bits falls on a set pixel. -/
theorem Drawing.hit_plotByte (g : Drawing) (msb : Bool) (b : Byte) (row : Fin 32) (col0 k fuel : Nat)
    (hf : k + fuel ≤ 64) :
    (g.plotByte msb b row col0 k fuel).hit = true ↔
      g.hit = true ∨ ∃ j, k ≤ j ∧ j < k + fuel ∧ spriteBit msb b j = true ∧ g.px.pixel row (wrapCol col0 j) = true := by
  induction fuel generalizing g k with
  | zero => simp [Drawing.plotByte]; omega
  | succ fuel ih =>
    rw [Drawing.plotByte, ih _ _ (by omega), Drawing.hit_plot]
    constructor
    · rintro (h | ⟨j, h1, h2, h3, h4⟩)
      · simp only [Bool.or_eq_true, Bool.and_eq_true] at h
        rcases h with h | h
        · exact .inl h
        · exact .inr ⟨k, by omega, by omega, h⟩
      · refine .inr ⟨j, by omega, by omega, h3, ?_⟩
        have hne : wrapCol col0 j ≠ wrapCol col0 k := fun h => by
          have := wrapCol_inj (by omega) (by omega) h
          omega
        simpa [Drawing.pixel_plot, hne] using h4
    · rintro (h | ⟨j, h1, h2, h3, h4⟩)
      · simp [h]
      · rcases Nat.eq_or_lt_of_le h1 with rfl | hlt
        · left; simp [h3, h4]
        · refine .inr ⟨j, by omega, by omega, h3, ?_⟩
          have hne : wrapCol col0 j ≠ wrapCol col0 k := fun h => by
            have := wrapCol_inj (by omega) (by omega) h
            omega
          simpa [Drawing.pixel_plot, hne] using h4

/-! ## The whole sprite -/

/-- A pixel no row of the sprite falls on is kept. -/
theorem Drawing.pixel_plotSprite_of_ne (g : Drawing) (msb : Bool) (row0 col0 r : Nat) (bs : List Byte) (row' : Fin 32)
    (col' : Fin 64)
    (h : ∀ q k, r ≤ q → q < r + bs.length → k < 8 → ¬ (row' = wrapRow row0 q ∧ col' = wrapCol col0 k)) :
    (g.plotSprite msb row0 col0 r bs).px.pixel row' col' = g.px.pixel row' col' := by
  induction bs generalizing g r with
  | nil => rfl
  | cons b bs ih =>
    simp only [List.length_cons] at h
    rw [Drawing.plotSprite, ih _ _ fun q k h1 h2 h3 => h q k (by omega) (by omega) h3,
      Drawing.pixel_plotByte_of_ne]
    exact fun j _ h2 => h r j (by omega) (by omega) (by omega)

/-- A pixel of the sprite is toggled when its bit is 1. -/
theorem Drawing.pixel_plotSprite (g : Drawing) (msb : Bool) (row0 col0 r : Nat) (bs : List Byte) (q k : Nat)
    (hl : r + bs.length ≤ 32) (hr : r ≤ q) (hq : q - r < bs.length) (hk : k < 8) :
    (g.plotSprite msb row0 col0 r bs).px.pixel (wrapRow row0 q) (wrapCol col0 k) =
      (g.px.pixel (wrapRow row0 q) (wrapCol col0 k) ^^ spriteBit msb bs[q - r] k) := by
  induction bs generalizing g r with
  | nil => simp at hq
  | cons b bs ih =>
    simp only [List.length_cons] at hl hq
    rw [Drawing.plotSprite]
    rcases Nat.eq_or_lt_of_le hr with rfl | hlt
    · rw [Drawing.pixel_plotSprite_of_ne, Drawing.pixel_plotByte _ _ _ _ _ _ _ _ (by omega) (by omega) (by omega)]
      · simp
      · rintro q' k' h1 h2 h3 ⟨h, -⟩
        have := wrapRow_inj (by omega) (by omega) h
        omega
    · obtain ⟨d, rfl⟩ : ∃ d, q = r + 1 + d := ⟨q - (r + 1), by omega⟩
      rw [ih _ _ (by omega) (by omega) (by omega), Drawing.pixel_plotByte_of_ne]
      · congr 2
        simp [show r + 1 + d - r = d + 1 by omega, show r + 1 + d - (r + 1) = d by omega]
      · rintro j _ _ ⟨h, -⟩
        have := wrapRow_inj (by omega) (by omega) h
        omega

/-- The sprite reports a collision when one of its bits falls on a pixel that was set. -/
theorem Drawing.hit_plotSprite (g : Drawing) (msb : Bool) (row0 col0 r : Nat) (bs : List Byte)
    (hl : r + bs.length ≤ 32) :
    (g.plotSprite msb row0 col0 r bs).hit = true ↔
      g.hit = true ∨ ∃ q k, ∃ h : q < bs.length, k < 8 ∧ spriteBit msb bs[q] k = true ∧
        g.px.pixel (wrapRow row0 (r + q)) (wrapCol col0 k) = true := by
  induction bs generalizing g r with
  | nil => simp [Drawing.plotSprite]
  | cons b bs ih =>
    simp only [List.length_cons] at hl
    have keep : ∀ q k, q < bs.length →
        (g.plotByte msb b (wrapRow row0 r) col0 0 8).px.pixel (wrapRow row0 (r + 1 + q)) (wrapCol col0 k) =
          g.px.pixel (wrapRow row0 (r + 1 + q)) (wrapCol col0 k) := fun q k hq => by
      apply Drawing.pixel_plotByte_of_ne
      rintro j _ _ ⟨h, -⟩
      have := wrapRow_inj (by omega) (by omega) h
      omega
    rw [Drawing.plotSprite, ih _ _ (by omega), Drawing.hit_plotByte _ _ _ _ _ _ _ (by omega)]
    constructor
    · rintro ((h | ⟨j, -, h2, h3, h4⟩) | ⟨q, k, hq, h2, h3, h4⟩)
      · exact .inl h
      · exact .inr ⟨0, j, by simp, by omega, h3, h4⟩
      · rw [keep q k hq] at h4
        exact .inr ⟨q + 1, k, by simpa using hq, h2, by simpa using h3, by rwa [show r + (q + 1) = r + 1 + q by omega]⟩
    · rintro (h | ⟨q, k, hq, h2, h3, h4⟩)
      · exact .inl (.inl h)
      · cases q with
        | zero => exact .inl (.inr ⟨k, by omega, by omega, h3, h4⟩)
        | succ q =>
          simp only [List.length_cons] at hq
          refine .inr ⟨q, k, by omega, h2, by simpa using h3, ?_⟩
          rw [keep q k (by omega)]
          rwa [show r + 1 + q = r + (q + 1) by omega]

end Sys2Proof.Machine
end

