-- ==== Sys2Proof/Laws/Frame.lean ====
section
/-! SUPPORT. What each shared operation leaves unchanged, as `SameOutside` facts the frames of the instructions are put together
from. -/

namespace Sys2Proof.Machine

theorem SameOutside.refl (touched : Part → Prop) (s : State) : SameOutside touched s s := by
  intro p _; cases p <;> rfl

/-- A frame may be widened. -/
theorem SameOutside.mono {A B : Part → Prop} {s t : State} (h : SameOutside A s t) (hab : ∀ p, A p → B p) :
    SameOutside B s t := fun p hp => h p fun ha => hp (hab p ha)

/-- Frames of two updates in a row. -/
theorem SameOutside.trans {A : Part → Prop} {s t u : State} (h : SameOutside A s t) (h' : SameOutside A t u) :
    SameOutside A s u := by
  intro p hp
  have h₁ := h p hp
  have h₂ := h' p hp
  cases p <;> exact Eq.trans h₂ h₁

/-- An update of the general registers alone. -/
theorem sameOutside_of_v {A : Part → Prop} {s t : State} (ht : t = { s with v := t.v })
    (hv : ∀ y, ¬ A (.v y) → t.getV y = s.getV y) : SameOutside A s t := by
  intro p hp
  cases p with
  | v y => exact hv y hp
  | _ => rw [ht]; rfl

theorem sameOutside_setV (s : State) (x : Nibble) (b : Byte) : SameOutside (fun p => p = .v x) s (s.setV x b) :=
  sameOutside_of_v rfl fun y hy => by
    rw [State.getV_setV, if_neg]
    rintro rfl
    exact hy rfl

theorem sameOutside_setFlagAndResult (s : State) (x : Nibble) (flag result : Byte) :
    SameOutside (fun p => p = .v x ∨ p = .v 15) s (s.setFlagAndResult x flag result) :=
  sameOutside_of_v (State.setFlagAndResult_eq s x flag result) fun y hy => by
    have h₁ : y ≠ x := fun h => hy (.inl (h ▸ rfl))
    have h₂ : y ≠ 15 := fun h => hy (.inr (h ▸ rfl))
    rw [State.getV_setFlagAndResult]
    split <;> simp only [h₁, h₂, if_false]

theorem sameOutside_setPc (s : State) (w : Word) : SameOutside (fun p => p = .pc) s (s.setPc w) := by
  intro p hp; cases p <;> first | rfl | exact absurd rfl hp

theorem sameOutside_setI (s : State) (w : Word) : SameOutside (fun p => p = .i) s (s.setI w) := by
  intro p hp; cases p <;> first | rfl | exact absurd rfl hp

theorem sameOutside_setDt (s : State) (b : Byte) : SameOutside (fun p => p = .dt) s (s.setDt b) := by
  intro p hp; cases p <;> first | rfl | exact absurd rfl hp

theorem sameOutside_setSt (s : State) (b : Byte) : SameOutside (fun p => p = .st) s (s.setSt b) := by
  intro p hp; cases p <;> first | rfl | exact absurd rfl hp

theorem sameOutside_skipIf (s : State) (c : Bool) : SameOutside (fun p => p = .pc) s (s.skipIf c) := by
  cases c
  · exact SameOutside.refl _ s
  · exact sameOutside_setPc s _

/-- An error changes the latch alone. -/
theorem sameOutside_raiseError (kind : ErrorKind) (w : Word) (s : State) : SameOutside isLatch s (raiseError kind w s) := by
  unfold raiseError
  split
  · intro p hp
    cases p <;> first | rfl | exact absurd (.inl rfl) hp | exact absurd (.inr rfl) hp
  · exact SameOutside.refl _ s

theorem sameOutside_beginKeyWait (s : State) (x : Nibble) :
    SameOutside (fun p => p = .waiting ∨ p = .waitX ∨ p = .keyEvent ∨ p = .pc) s (s.beginKeyWait x) := by
  intro p hp; cases p <;> first | rfl | exact absurd (by simp) hp

/-- A wide store changes the bytes it stores to. -/
theorem sameOutside_writeBytes (s : State) (a : Nat) (bs : List Byte) :
    SameOutside (fun p => ∃ k, k < bs.length ∧ p = .memByte (a + k)) s (s.writeBytes a bs) := by
  intro p hp
  cases p with
  | memByte a' =>
    refine State.readByte_writeBytes_of_outside s (Decidable.byContradiction fun hn => hp ⟨a' - a, by omega, ?_⟩)
    congr 1; omega
  | _ => rw [State.writeBytes_eq]; rfl

theorem sameOutside_loadBlock (s : State) (x : Nibble) (a : Nat) :
    SameOutside (fun p => ∃ k : Nibble, k.toNat ≤ x.toNat ∧ p = .v k) s (s.loadBlock x a) :=
  sameOutside_of_v rfl fun y hy => by
    rw [State.getV_loadBlock, if_neg]
    exact fun h => hy ⟨y, h, rfl⟩

/-- An update of the display alone. -/
theorem sameOutside_px {A : Part → Prop} (s : State) (d : Display)
    (hd : ∀ row col, ¬ A (.pixel row col) → d.pixel row col = s.px.pixel row col) : SameOutside A s { s with px := d } := by
  intro p hp
  cases p with
  | pixel row col => exact hd row col hp
  | _ => rfl

end Sys2Proof.Machine
end

