-- ==== Sys2Proof/Laws/PerInstr.lean ====
section
/-! SUPPORT. One lemma per instruction: its word is covered by its own row of the opcode map (30_encoding.md R74, R82). -/

namespace Sys2Proof.Laws

/-- The row of an instruction covers its word. -/
def EncodesToItsRow.Statement (i : Instr) : Prop := (rowOf i).covers (encode i) = true

theorem nibble_and_ones (a : Nibble) : a &&& 15#4 = a := BitVec.and_allOnes

theorem byte_and_ones (a : Byte) : a &&& 255#8 = a := BitVec.and_allOnes

theorem covers_wordNNN (m : String) (op : Nibble) (nnn : Addr12) :
    (OpcodeRow.mk m 0xF000 (wordNNN op 0)).covers (wordNNN op nnn) = true := by
  have h : wordNNN op nnn &&& 0xF000 = (op ++ nnn) &&& ((0xF#4 ++ 0x000#12 : BitVec (4 + 12))) := rfl
  have h0 : wordNNN op 0 = (op ++ (0 : Addr12) : BitVec (4 + 12)) := rfl
  simp only [OpcodeRow.covers, h, h0, beq_iff_eq]
  rw [BitVec.and_append]
  simp [nibble_and_ones]

theorem covers_wordXNN (m : String) (op x : Nibble) (nn : Byte) :
    (OpcodeRow.mk m 0xF000 (wordXNN op 0 0)).covers (wordXNN op x nn) = true := by
  have h : wordXNN op x nn &&& 0xF000 = (op ++ x ++ nn) &&& ((0xF#4 ++ 0x0#4 ++ 0x00#8 : BitVec (4 + 4 + 8))) := rfl
  have h0 : wordXNN op 0 0 = (op ++ (0 : Nibble) ++ (0 : Byte) : BitVec (4 + 4 + 8)) := rfl
  simp only [OpcodeRow.covers, h, h0, beq_iff_eq]
  rw [BitVec.and_append, BitVec.and_append]
  simp [nibble_and_ones]

theorem covers_wordX (m : String) (op x : Nibble) (nn : Byte) :
    (OpcodeRow.mk m 0xF0FF (wordXNN op 0 nn)).covers (wordXNN op x nn) = true := by
  have h : wordXNN op x nn &&& 0xF0FF = (op ++ x ++ nn) &&& ((0xF#4 ++ 0x0#4 ++ 0xFF#8 : BitVec (4 + 4 + 8))) := rfl
  have h0 : wordXNN op 0 nn = (op ++ (0 : Nibble) ++ nn : BitVec (4 + 4 + 8)) := rfl
  simp only [OpcodeRow.covers, h, h0, beq_iff_eq]
  rw [BitVec.and_append, BitVec.and_append]
  simp [nibble_and_ones, byte_and_ones]

theorem covers_wordXY (m : String) (op x y n : Nibble) :
    (OpcodeRow.mk m 0xF00F (wordXYN op 0 0 n)).covers (wordXYN op x y n) = true := by
  have h : wordXYN op x y n &&& 0xF00F =
      (op ++ x ++ y ++ n) &&& ((0xF#4 ++ 0x0#4 ++ 0x0#4 ++ 0xF#4 : BitVec (4 + 4 + 4 + 4))) := rfl
  have h0 : wordXYN op 0 0 n = (op ++ (0 : Nibble) ++ (0 : Nibble) ++ n : BitVec (4 + 4 + 4 + 4)) := rfl
  simp only [OpcodeRow.covers, h, h0, beq_iff_eq]
  rw [BitVec.and_append, BitVec.and_append, BitVec.and_append]
  simp [nibble_and_ones]

theorem covers_wordXYN (m : String) (op x y n : Nibble) :
    (OpcodeRow.mk m 0xF000 (wordXYN op 0 0 0)).covers (wordXYN op x y n) = true := by
  have h : wordXYN op x y n &&& 0xF000 =
      (op ++ x ++ y ++ n) &&& ((0xF#4 ++ 0x0#4 ++ 0x0#4 ++ 0x0#4 : BitVec (4 + 4 + 4 + 4))) := rfl
  have h0 : wordXYN op 0 0 0 = (op ++ (0 : Nibble) ++ (0 : Nibble) ++ (0 : Nibble) : BitVec (4 + 4 + 4 + 4)) := rfl
  simp only [OpcodeRow.covers, h, h0, beq_iff_eq]
  rw [BitVec.and_append, BitVec.and_append, BitVec.and_append]
  simp [nibble_and_ones]

theorem EncodesToItsRow.nop : EncodesToItsRow.Statement .nop := rfl
theorem EncodesToItsRow.cls : EncodesToItsRow.Statement .cls := rfl
theorem EncodesToItsRow.ret : EncodesToItsRow.Statement .ret := rfl
theorem EncodesToItsRow.jpAddr (nnn : Addr12) : EncodesToItsRow.Statement (.jpAddr nnn) := covers_wordNNN _ 0x1 nnn
theorem EncodesToItsRow.callAddr (nnn : Addr12) : EncodesToItsRow.Statement (.callAddr nnn) := covers_wordNNN _ 0x2 nnn
theorem EncodesToItsRow.seVxNn (x : Nibble) (nn : Byte) : EncodesToItsRow.Statement (.seVxNn x nn) := covers_wordXNN _ 0x3 x nn
theorem EncodesToItsRow.sneVxNn (x : Nibble) (nn : Byte) : EncodesToItsRow.Statement (.sneVxNn x nn) := covers_wordXNN _ 0x4 x nn
theorem EncodesToItsRow.seVxVy (x y : Nibble) : EncodesToItsRow.Statement (.seVxVy x y) := covers_wordXY _ 0x5 x y 0x0
theorem EncodesToItsRow.ldVxNn (x : Nibble) (nn : Byte) : EncodesToItsRow.Statement (.ldVxNn x nn) := covers_wordXNN _ 0x6 x nn
theorem EncodesToItsRow.addVxNn (x : Nibble) (nn : Byte) : EncodesToItsRow.Statement (.addVxNn x nn) := covers_wordXNN _ 0x7 x nn
theorem EncodesToItsRow.ldVxVy (x y : Nibble) : EncodesToItsRow.Statement (.ldVxVy x y) := covers_wordXY _ 0x8 x y 0x0
theorem EncodesToItsRow.orVxVy (x y : Nibble) : EncodesToItsRow.Statement (.orVxVy x y) := covers_wordXY _ 0x8 x y 0x1
theorem EncodesToItsRow.andVxVy (x y : Nibble) : EncodesToItsRow.Statement (.andVxVy x y) := covers_wordXY _ 0x8 x y 0x2
theorem EncodesToItsRow.xorVxVy (x y : Nibble) : EncodesToItsRow.Statement (.xorVxVy x y) := covers_wordXY _ 0x8 x y 0x3
theorem EncodesToItsRow.addVxVy (x y : Nibble) : EncodesToItsRow.Statement (.addVxVy x y) := covers_wordXY _ 0x8 x y 0x4
theorem EncodesToItsRow.subVxVy (x y : Nibble) : EncodesToItsRow.Statement (.subVxVy x y) := covers_wordXY _ 0x8 x y 0x5
theorem EncodesToItsRow.shrVx (x y : Nibble) : EncodesToItsRow.Statement (.shrVx x y) := covers_wordXY _ 0x8 x y 0x6
theorem EncodesToItsRow.subnVxVy (x y : Nibble) : EncodesToItsRow.Statement (.subnVxVy x y) := covers_wordXY _ 0x8 x y 0x7
theorem EncodesToItsRow.shlVx (x y : Nibble) : EncodesToItsRow.Statement (.shlVx x y) := covers_wordXY _ 0x8 x y 0xE
theorem EncodesToItsRow.sneVxVy (x y : Nibble) : EncodesToItsRow.Statement (.sneVxVy x y) := covers_wordXY _ 0x9 x y 0x0
theorem EncodesToItsRow.ldIAddr (nnn : Addr12) : EncodesToItsRow.Statement (.ldIAddr nnn) := covers_wordNNN _ 0xA nnn
theorem EncodesToItsRow.jpV0Addr (nnn : Addr12) : EncodesToItsRow.Statement (.jpV0Addr nnn) := covers_wordNNN _ 0xB nnn
theorem EncodesToItsRow.rndVxNn (x : Nibble) (nn : Byte) : EncodesToItsRow.Statement (.rndVxNn x nn) := covers_wordXNN _ 0xC x nn
theorem EncodesToItsRow.drwVxVyN (x y n : Nibble) : EncodesToItsRow.Statement (.drwVxVyN x y n) := covers_wordXYN _ 0xD x y n
theorem EncodesToItsRow.skpVx (x : Nibble) : EncodesToItsRow.Statement (.skpVx x) := covers_wordX _ 0xE x 0x9E
theorem EncodesToItsRow.sknpVx (x : Nibble) : EncodesToItsRow.Statement (.sknpVx x) := covers_wordX _ 0xE x 0xA1
theorem EncodesToItsRow.ldVxDt (x : Nibble) : EncodesToItsRow.Statement (.ldVxDt x) := covers_wordX _ 0xF x 0x07
theorem EncodesToItsRow.ldVxK (x : Nibble) : EncodesToItsRow.Statement (.ldVxK x) := covers_wordX _ 0xF x 0x0A
theorem EncodesToItsRow.ldDtVx (x : Nibble) : EncodesToItsRow.Statement (.ldDtVx x) := covers_wordX _ 0xF x 0x15
theorem EncodesToItsRow.ldStVx (x : Nibble) : EncodesToItsRow.Statement (.ldStVx x) := covers_wordX _ 0xF x 0x18
theorem EncodesToItsRow.addIVx (x : Nibble) : EncodesToItsRow.Statement (.addIVx x) := covers_wordX _ 0xF x 0x1E
theorem EncodesToItsRow.ldFVx (x : Nibble) : EncodesToItsRow.Statement (.ldFVx x) := covers_wordX _ 0xF x 0x29
theorem EncodesToItsRow.ldBVx (x : Nibble) : EncodesToItsRow.Statement (.ldBVx x) := covers_wordX _ 0xF x 0x33
theorem EncodesToItsRow.ldMemVx (x : Nibble) : EncodesToItsRow.Statement (.ldMemVx x) := covers_wordX _ 0xF x 0x55
theorem EncodesToItsRow.ldVxMem (x : Nibble) : EncodesToItsRow.Statement (.ldVxMem x) := covers_wordX _ 0xF x 0x65

end Sys2Proof.Laws
end

