-- ==== Sys2Proof/Laws/Step.lean ====
section
/-! SUPPORT. What a step can do, once (40_step_cycle.md R90): every proof about `step` starts from here. -/

namespace Sys2Proof.Machine

/-- A word that does not decode is reported as itself. -/
theorem eq_of_decodeWord_error {w : Word} {e : DecodeError} (h : decodeWord w = .error e) :
    e = .unimplementedOpcode w := by
  unfold decodeWord at h
  repeat' split at h
  all_goals first | exact (Except.error.inj h).symm | cases h

/-- The phases of a step that answers a next state. -/
theorem step_cases {s t : State} (h : step s = .next t) :
    s.fault = none ∧
    ((s.waiting = true ∧ t = s.keyWaitStep) ∨
     (s.waiting = false ∧ s.pc.toNat > 4094 ∧ t = { s with fault := some .memoryOutOfBounds, faultWord := 0 }) ∨
     (s.waiting = false ∧ s.pc.toNat ≤ 4094 ∧ decodeWord s.wordAtPc = .error (.unimplementedOpcode s.wordAtPc) ∧
        t = raiseError .unimplementedOpcode s.wordAtPc s.advancePc) ∨
     (s.waiting = false ∧ s.pc.toNat ≤ 4094 ∧ ∃ i, decodeWord s.wordAtPc = .ok i ∧ exec i s.advancePc = .next t)) := by
  unfold step cycle at h
  cases hf : s.fault with
  | some k => rw [hf] at h; cases h
  | none =>
    rw [hf] at h
    refine ⟨rfl, ?_⟩
    rcases Bool.eq_false_or_eq_true s.waiting with hw | hw
    · simp only [hw, if_true] at h; exact .inl ⟨hw, (Host.Outcome.next.inj h).symm⟩
    · simp only [hw, Bool.false_eq_true, if_false] at h
      refine .inr ?_
      unfold fetchAndRun at h
      rcases Nat.lt_or_ge 4094 s.pc.toNat with hp | hp
      · rw [fetch_of_gt hp] at h
        exact .inl ⟨hw, hp, (Host.Outcome.next.inj h).symm⟩
      · rw [fetch_of_le hp] at h
        refine .inr ?_
        unfold runWord at h
        cases hd : decodeWord s.wordAtPc with
        | error e =>
          simp only [hd] at h
          rw [eq_of_decodeWord_error hd]
          exact .inl ⟨hw, hp, rfl, (Host.Outcome.next.inj h).symm⟩
        | ok i =>
          simp only [hd] at h
          exact .inr ⟨hw, hp, i, rfl, h⟩

theorem step_waiting {s : State} (hf : s.fault = none) (hw : s.waiting = true) : step s = .next s.keyWaitStep := by
  simp [step, cycle, hf, hw]

theorem step_fetches {s : State} (hf : s.fault = none) (hw : s.waiting = false) (hp : s.pc.toNat ≤ 4094) :
    step s = runWord s.wordAtPc s.advancePc := by
  simp [step, cycle, hf, hw, fetchAndRun, fetch_of_le hp]

/-! ## The operations of the host -/

theorem toNat_countDown (b : Byte) : (countDown b).toNat = b.toNat - 1 := by
  unfold countDown
  split
  · subst_vars; rfl
  · have : b.toNat ≠ 0 := fun h => ‹¬ b = 0› (BitVec.eq_of_toNat_eq h)
    have := b.isLt
    rw [BitVec.toNat_sub, show (1 : Byte).toNat = 1 from rfl]
    omega

theorem State.keyPressed_setKey (s : State) (k k' : Nibble) (pressed : Bool) :
    (setKey k pressed s).keyPressed k' = if k' = k then pressed else s.keyPressed k' := by
  simp only [State.keyPressed, setKey, Vector.getElem_set, BitVec.toNat_inj]
  split <;> split <;> simp_all

end Sys2Proof.Machine
end

