-- ==== Sys2Proof/Tests/Slice0.lean ====
section
/-! SUPPORT. The model's own tests, on expected results taken from spec/ (30_encoding.md R82, 95_test_vectors.md), and for every
statement with hypotheses a witness that meets them. -/

namespace Sys2Proof.Machine.Tests

/-! ## Decoding: words written out from the spec's encodings (30_encoding.md R74, R71, R82) -/

-- R100, R150, R101
theorem test_decode_fixed :
    decodeWord 0b0000000000000000 = .ok .nop ∧ decodeWord 0b0000000011100000 = .ok .cls ∧
    decodeWord 0b0000000011101110 = .ok .ret := by decide

-- 1nnn, 2nnn, Annn, Bnnn (R102, R103, R140, R108)
theorem test_decode_nnn :
    decodeWord 0b0001001000110100 = .ok (.jpAddr 0x234) ∧ decodeWord 0b0010001101000101 = .ok (.callAddr 0x345) ∧
    decodeWord 0b1010001011110000 = .ok (.ldIAddr 0x2F0) ∧ decodeWord 0b1011111111111111 = .ok (.jpV0Addr 0xFFF) := by
  decide

-- 3xnn, 4xnn, 6xnn, 7xnn, Cxnn (R104, R105, R120, R121, R131)
theorem test_decode_xnn :
    decodeWord 0b0011000100000000 = .ok (.seVxNn 1 0x00) ∧ decodeWord 0b0100001000010001 = .ok (.sneVxNn 2 0x11) ∧
    decodeWord 0b0110001101111111 = .ok (.ldVxNn 3 0x7F) ∧ decodeWord 0b0111000111111111 = .ok (.addVxNn 1 0xFF) ∧
    decodeWord 0b1100001100001111 = .ok (.rndVxNn 3 0x0F) := by decide

-- 5xy0, 9xy0, 8xy0 to 8xy3 (R106, R107, R122 to R125)
theorem test_decode_xy_compare_and_logic :
    decodeWord 0b0101001101000000 = .ok (.seVxVy 3 4) ∧ decodeWord 0b1001000000010000 = .ok (.sneVxVy 0 1) ∧
    decodeWord 0b1000000100100000 = .ok (.ldVxVy 1 2) ∧ decodeWord 0b1000000000010001 = .ok (.orVxVy 0 1) ∧
    decodeWord 0b1000000000010010 = .ok (.andVxVy 0 1) ∧ decodeWord 0b1000000000010011 = .ok (.xorVxVy 0 1) := by decide

-- 8xy4 to 8xy7, 8xyE, Dxyn (R126 to R130, R151)
theorem test_decode_xy_arithmetic_and_draw :
    decodeWord 0b1000001000010100 = .ok (.addVxVy 2 1) ∧ decodeWord 0b1000001000010101 = .ok (.subVxVy 2 1) ∧
    decodeWord 0b1000000111110110 = .ok (.shrVx 1 0xF) ∧ decodeWord 0b1000001000010111 = .ok (.subnVxVy 2 1) ∧
    decodeWord 0b1000000100001110 = .ok (.shlVx 1 0) ∧ decodeWord 0b1101101010110101 = .ok (.drwVxVyN 0xA 0xB 5) := by
  decide

-- Ex9E, ExA1 (R160, R161)
theorem test_decode_keys :
    decodeWord 0b1110001010011110 = .ok (.skpVx 2) ∧ decodeWord 0b1110001010100001 = .ok (.sknpVx 2) := by decide

-- Fx07, Fx0A, Fx15, Fx18, Fx1E (R162 to R165, R141)
theorem test_decode_timers_and_index :
    decodeWord 0b1111001100000111 = .ok (.ldVxDt 3) ∧ decodeWord 0b1111001000001010 = .ok (.ldVxK 2) ∧
    decodeWord 0b1111010100010101 = .ok (.ldDtVx 5) ∧ decodeWord 0b1111011000011000 = .ok (.ldStVx 6) ∧
    decodeWord 0b1111001000011110 = .ok (.addIVx 2) := by decide

-- Fx29, Fx33, Fx55, Fx65 (R142 to R145)
theorem test_decode_memory :
    decodeWord 0b1111101000101001 = .ok (.ldFVx 0xA) ∧ decodeWord 0b1111101100110011 = .ok (.ldBVx 0xB) ∧
    decodeWord 0b1111000101010101 = .ok (.ldMemVx 1) ∧ decodeWord 0b1111111001100101 = .ok (.ldVxMem 0xE) := by decide

-- 30_encoding.md R82, the worked encodings
theorem test_encode_worked :
    encode (.ldVxNn 3 0x7F) = 0x637F ∧ encode (.drwVxVyN 0xA 0xB 5) = 0xDAB5 ∧ encode (.callAddr 0x345) = 0x2345 ∧
    encode (.ldVxMem 0xE) = 0xFE65 ∧ encode (.sknpVx 2) = 0xE2A1 ∧ encodeBytes (.ldVxNn 3 0x7F) = [0x63, 0x7F] := by decide

-- The host's numbering: the first byte is the word's high byte (95_test_vectors.md F3)
theorem test_decodeTableWord : decodeTableWord 16 0x1234 = some (.jpAddr 0x234) ∧ decodeTableWord 16 0x0123 = none := by
  decide

/-! ## Well-formed words: one ill-formed word for each class of 30_encoding.md R76 -/

theorem test_wordWellFormed_refuses :
    wordWellFormed 0x0123 = false ∧ wordWellFormed 0x5341 = false ∧ wordWellFormed 0x8008 = false ∧
    wordWellFormed 0x9121 = false ∧ wordWellFormed 0xE000 = false ∧ wordWellFormed 0xF175 = false := by decide

theorem test_wordWellFormed_accepts :
    wordWellFormed 0x00EE = true ∧ wordWellFormed 0x81F6 = true ∧ wordWellFormed 0xD010 = true := by decide

-- F6 to F13: the decoder refuses them with the raw word
theorem test_decode_refuses :
    decodeWord 0x00E1 = .error (.unimplementedOpcode 0x00E1) ∧ decodeWord 0x5341 = .error (.unimplementedOpcode 0x5341) ∧
    decodeWord 0x8008 = .error (.unimplementedOpcode 0x8008) ∧ decodeWord 0xF000 = .error (.unimplementedOpcode 0xF000) ∧
    decode [0x12] = .error .tooShort := by decide

/-! ## One step of each instruction (the rows of 95_test_vectors.md part 2) -/

/-- The state after the STEP that runs the word `w` (the state itself where a step stops). -/
def after (s : State) (w : Nat) : State := stateAfterStep (s.withFetchWord 16 w)

/-- The state after RESET with `V[0]` and `V[1]` set. -/
def regs (v0 v1 : Byte) : State := (State.reset.setV 0 v0).setV 1 v1

/-- The state after RESET with `I` set and bytes stored at 0x300. -/
def withData (i : Word) (bytes : List Byte) : State := (State.reset.setI i).writeBytes 0x300 bytes

theorem test_F1_nop : (after State.reset 0x0000).pc = 0x202 := by decide
theorem test_F4_last_fetch : (after (State.reset.setPc 4094) 0x6001).getV 0 = 1 ∧ (after (State.reset.setPc 4094) 0x6001).pc = 4096 := by
  decide
theorem test_F5_fetch_beyond : (stateAfterStep (State.reset.setPc 4095)).fault = some .memoryOutOfBounds ∧
    (stateAfterStep (State.reset.setPc 4095)).pc = 4095 := by decide
theorem test_F6_unimplemented : (after State.reset 0x0123).fault = some .unimplementedOpcode ∧
    (after State.reset 0x0123).faultWord = 0x0123 ∧ (after State.reset 0x0123).pc = 0x202 := by decide
theorem test_C1_jp_self : (after State.reset 0x1200).pc = 0x200 := by decide
theorem test_C4_call : (after State.reset 0x2ABC).stack[0] = 0x0202 ∧ (after State.reset 0x2ABC).sp = 1 ∧
    (after State.reset 0x2ABC).pc = 0xABC := by decide
theorem test_C6_call_overflow : (after { State.reset with sp := 16 } 0x2300).fault = some .stackOverflow ∧
    (after { State.reset with sp := 16 } 0x2300).pc = 0x202 := by decide
theorem test_C7_ret : (after { State.reset with sp := 1, stack := State.reset.stack.set 0 0x0ABC } 0x00EE).pc = 0xABC := by decide
theorem test_C8_ret_underflow : (after State.reset 0x00EE).fault = some .stackUnderflow ∧ (after State.reset 0x00EE).pc = 0x202 := by
  decide
theorem test_C9_C10_se : (after (State.reset.setV 3 0x41) 0x3341).pc = 0x204 ∧ (after (State.reset.setV 3 0x40) 0x3341).pc = 0x202 := by
  decide
theorem test_C11_C12_sne : (after (State.reset.setV 3 0x41) 0x4341).pc = 0x202 ∧ (after (State.reset.setV 3 0x40) 0x4341).pc = 0x204 := by
  decide
theorem test_C13_C14_se_reg : (after ((State.reset.setV 1 7).setV 2 7) 0x5120).pc = 0x204 ∧
    (after ((State.reset.setV 1 7).setV 2 8) 0x5120).pc = 0x202 := by decide
theorem test_C16_C17_sne_reg : (after ((State.reset.setV 1 7).setV 2 8) 0x9120).pc = 0x204 ∧ (after State.reset 0x9AA0).pc = 0x202 := by
  decide
theorem test_C19_jp_v0 : (after (State.reset.setV 0 0xFF) 0xBFFF).pc = 0x10FE := by decide
theorem test_A2_ld_imm : (after State.reset 0x6F07).getV 15 = 0x07 := by decide
theorem test_A3_add_imm_wraps : (after (State.reset.setV 0 0xFF) 0x7001).getV 0 = 0 ∧
    (after (State.reset.setV 0 0xFF) 0x7001).getV 15 = 0 := by decide
theorem test_A5_ld_reg : (after (regs 0 0x3C) 0x8010).getV 0 = 0x3C := by decide
theorem test_A6_or : (after ((regs 0xF0 0x0F).setV 15 1) 0x8011).getV 0 = 0xFF ∧
    (after ((regs 0xF0 0x0F).setV 15 1) 0x8011).getV 15 = 1 := by decide
theorem test_A7_and : (after (regs 0xF0 0x3C) 0x8012).getV 0 = 0x30 := by decide
theorem test_A8_xor : (after (regs 0xF0 0x3C) 0x8013).getV 0 = 0xCC := by decide
theorem test_A10_A11_add : (after (regs 0xFF 0x01) 0x8014).getV 0 = 0x00 ∧ (after (regs 0xFF 0x01) 0x8014).getV 15 = 1 ∧
    (after (regs 0xFF 0x00) 0x8014).getV 15 = 0 := by decide
theorem test_A31_add_into_vf : (after ((State.reset.setV 15 0xF0).setV 1 0x20) 0x8F14).getV 15 = 0x10 := by decide
theorem test_E3_sub : (after (regs 0x10 0x05) 0x8015).getV 0 = 0x0B ∧ (after (regs 0x10 0x05) 0x8015).getV 15 = 1 ∧
    (after (regs 0x05 0x10) 0x8015).getV 0 = 0xF5 ∧ (after (regs 0x05 0x10) 0x8015).getV 15 = 0 := by decide
theorem test_A39_sub_flag_last :
    (after { (State.reset.setV 15 0x33) with params := { defaultParams with vfWriteOrder := .flagLast } } 0x8FF5).getV 15 = 1 ∧
    (after (State.reset.setV 15 0x33) 0x8FF5).getV 15 = 0 := by decide
theorem test_A19_shr_ignores_y : (after ((State.reset.setV 0 0x05).setV 7 0xEE) 0x8076).getV 0 = 0x02 ∧
    (after ((State.reset.setV 0 0x05).setV 7 0xEE) 0x8076).getV 15 = 1 := by decide
theorem test_A20_A21_subn : (after (regs 0x05 0x10) 0x8017).getV 0 = 0x0B ∧ (after (regs 0x10 0x05) 0x8017).getV 0 = 0xF5 ∧
    (after (regs 0x10 0x05) 0x8017).getV 15 = 0 := by decide
theorem test_A25_A26_shl : (after (regs 0x7F 0) 0x800E).getV 0 = 0xFE ∧ (after (regs 0x7F 0) 0x800E).getV 15 = 0 ∧
    (after (regs 0xFF 0) 0x800E).getV 15 = 1 := by decide
theorem test_A28_A29_rnd (s : State) :
    (∃ t, exec (.rndVxNn 0 0x00) s = .next t ∧ t.getV 0 = 0) ∧
    (∃ t, exec (.rndVxNn 0 0xFF) s = .next t ∧ t.getV 0 = Config.draw8 s.draws) :=
  ⟨⟨_, rfl, by simp [State.draw]⟩, ⟨_, rfl,
    (State.getV_setV_self _ _ _).trans (BitVec.and_allOnes (x := Config.draw8 s.draws))⟩⟩
theorem test_M1_ld_i : (after State.reset 0xAFFF).i = 0x0FFF := by decide
theorem test_M2_M3_add_i : (after ((State.reset.setI 0x0FFF).setV 0 1) 0xF01E).i = 0x1000 ∧
    (after ((State.reset.setI 0xFFFF).setV 0 2) 0xF01E).i = 0x0001 := by decide
theorem test_M5_M6_ld_f : (after (regs 0x1A 0) 0xF029).i = 0x0032 ∧ (after (regs 0xFF 0) 0xF029).i = 0x004B := by decide
theorem test_M8_bcd : (after ((State.reset.setI 0xFFD).setV 0 255) 0xF033).readBytes 0xFFD 3 = [2, 5, 5] := by decide
theorem test_M9_bcd_beyond : (after ((State.reset.setI 0xFFE).setV 0 255) 0xF033).fault = some .memoryOutOfBounds ∧
    (after ((State.reset.setI 0xFFE).setV 0 255) 0xF033).readByte 0xFFE = 0 := by decide
theorem test_M13_M14_store : (after ((State.reset.setI 0xFFF).setV 0 1) 0xF055).readByte 0xFFF = 1 ∧
    (after ((regs 1 2).setI 0xFFF) 0xF155).readByte 0xFFF = 0 := by decide
theorem test_M18_load : (after State.reset 0xF465).v.toList.take 6 = [0xF0, 0x90, 0x90, 0x90, 0xF0, 0] := by decide
theorem test_M17_load_beyond : (after (State.reset.setI 0x1000) 0xF065).fault = some .memoryOutOfBounds := by decide
theorem test_G11_cls : (after { State.reset with px := State.reset.px.toggle 3 4 } 0x00E0).px.pixel 3 4 = false := by decide
theorem test_G3_draw_wraps_columns :
    (after ((withData 0x300 [0xFF]).setV 0 0xFF |>.setV 1 0xFF) 0xD011).px.pixel 31 63 = true ∧
    (after ((withData 0x300 [0xFF]).setV 0 0xFF |>.setV 1 0xFF) 0xD011).px.pixel 31 6 = true ∧
    (after ((withData 0x300 [0xFF]).setV 0 0xFF |>.setV 1 0xFF) 0xD011).px.pixel 31 7 = false := by decide
theorem test_G4_draw_wraps_rows : (after ((withData 0x300 [0x80, 0x80]).setV 1 31) 0xD012).px.pixel 0 0 = true := by decide
theorem test_K1_K2_skp :
    (after { (State.reset.setV 2 5) with key := State.reset.key.set 5 true } 0xE29E).pc = 0x204 ∧
    (after (State.reset.setV 2 5) 0xE29E).pc = 0x202 := by decide
theorem test_K5_K6_skp_beyond : (after (State.reset.setV 2 0x10) 0xE29E).fault = some .invalidKeyIndex ∧
    (after { setKey 5 true (State.reset.setV 2 0x15) with params := { defaultParams with keyIndexPolicy := .mask4 } } 0xE29E).pc =
      0x204 := by decide
theorem test_K3_K4_sknp :
    (after { (State.reset.setV 2 5) with key := State.reset.key.set 5 true } 0xE2A1).pc = 0x202 ∧
    (after (State.reset.setV 2 5) 0xE2A1).pc = 0x204 := by decide
theorem test_K7_ld_dt : (after (State.reset.setDt 0x2A) 0xF307).getV 3 = 0x2A := by decide
theorem test_K8_set_dt : (after (State.reset.setV 3 0xFF) 0xF315).dt = 0xFF := by decide
theorem test_K9_set_st : (after (State.reset.setV 3 0x02) 0xF318).st = 0x02 := by decide
theorem test_K16_key_wait_begins : (after State.reset 0xF20A).waiting = true ∧ (after State.reset 0xF20A).waitX = 2 ∧
    (after State.reset 0xF20A).pc = 0x200 := by decide
theorem test_E7_key_wait_completes : (stateAfterStep (setKey 5 true (after State.reset 0xF20A))).getV 2 = 5 ∧
    (stateAfterStep (setKey 5 true (after State.reset 0xF20A))).pc = 0x202 := by decide
theorem test_K11_tick : tick ((State.reset.setDt 1).setSt 1) = (true, State.reset) := by decide
-- 60_exceptions.md R170, the column "code" from its first row to its last
theorem test_R170_codes :
    [none, some .memoryOutOfBounds, some .stackOverflow, some .stackUnderflow, some .unimplementedOpcode, some .romTooLarge,
      some .invalidKeyIndex].map errorCode = [0, 1, 2, 3, 4, 5, 6] := by decide
theorem test_R170_fault_code : State.reset.faultCode = 0 ∧ (after State.reset 0x00EE).faultCode = 3 ∧
    errorCode ((stepResult State.reset).bind StepResult.kind?) = 0 := by decide
theorem test_F15_continue :
    stepResult ({ State.reset with params := { defaultParams with unimplPolicy := .proceed } }.withFetchWord 16 0x0123) =
      some (.error .unimplementedOpcode 0x0123) := by decide
theorem test_E10_step_result_ok : stepResult State.reset = some .ok := by decide

/-! ## Witnesses: for each statement with hypotheses, a state and operands that meet them -/

/-- A halted state. -/
def halted : State := { State.reset with fault := some .stackOverflow }

/-- A state in a key wait, at the last address a fetch succeeds at. -/
def waitingAtTop : State := { State.reset with waiting := true, waitX := 15, pc := 4094 }

/-- The state after RESET with other parameters. -/
def withParams (p : Params) : State := { State.reset with params := p }

theorem witness_EncodeInvertsDecode : decodeWord 0x81F6 = .ok (.shrVx 1 0xF) := by decide
theorem witness_DecoderFollowsOpcodeTable : wordWellFormed 0xF065 = true ∧ wordWellFormed 0xF066 = false := by decide
theorem witness_OpcodeRowsDisjoint :
    rowOf .cls ∈ opcodeRows ∧ (rowOf .cls).covers 0x00E0 = true := by decide
theorem witness_InstructionIsTwoBytesHighFirst :
    decodeWord (BitVec.ofNat 16 ((0x12 : Byte).toNat * 256 + (0x34 : Byte).toNat)) = .ok (.jpAddr 0x234) := by decide
theorem witness_StepRunsDecodedInstruction :
    State.Fetches (State.reset.setPc 4094) ∧
    decodeWord (BitVec.ofNat 16 (((State.reset.setPc 4094).readByte 4094).toNat * 256 +
      ((State.reset.setPc 4094).readByte 4095).toNat)) = .ok .nop := by decide
theorem witness_FetchBeyondMemoryLatches :
    (State.reset.setPc 4095).fault = none ∧ (State.reset.setPc 4095).waiting = false ∧
    (State.reset.setPc 4095).pc.toNat > 4094 := by decide
theorem witness_UnimplementedWordIsReported (p : UnimplPolicy) :
    let s := (withParams { defaultParams with unimplPolicy := p }).setPc 0
    s.Fetches ∧
    (0xF090 : Word) = BitVec.ofNat 16 ((s.readByte s.pc.toNat).toNat * 256 + (s.readByte (s.pc.toNat + 1)).toNat) ∧
    wordWellFormed 0xF090 = false ∧ s.params.unimplPolicy = p := by cases p <;> decide
theorem witness_HaltIsSticky : halted.fault = some .stackOverflow := by decide
theorem witness_KeyWaitPollsThenCompletes :
    waitingAtTop.fault = none ∧ waitingAtTop.waiting = true ∧ waitingAtTop.keyEvent = none ∧
    (setKey 0xC true waitingAtTop).keyEvent = some 0xC := by decide
theorem witness_RunningMachineAlwaysSteps : State.reset.fault = none := by decide
theorem witness_StoredWordIsFetchedNext : State.reset.MemInv ∧ State.reset.Fetches := by decide
theorem witness_step_invariants :
    State.reset.MemInv ∧ State.reset.PcInv ∧ State.reset.LatchInv ∧ State.reset.KeyEventInv ∧
    step State.reset = .next (State.reset.setPc 0x202) := by
  refine ⟨by decide, by decide, by decide, by decide, rfl⟩
theorem witness_HostOperationsKeepInvariant : State.reset.Inv := by decide
theorem witness_CanonicalMemories :
    Memory.wf conventionalFont [(0, 0x01), (4095, 0x02)] = true := by decide
theorem witness_ResetMeetsInvariant :
    (after State.reset 0x6F07).params = defaultParams ∧ (after State.reset 0x6F07).draws = 0 := by decide
theorem witness_ErrorsComeFromTheirCauses :
    State.reset.fault = none ∧ (after State.reset 0x00EE).fault = some .stackUnderflow ∧
    (after { State.reset with sp := 16 } 0x2300).fault = some .stackOverflow ∧
    (after (State.reset.setI 0xFFE) 0xF033).fault = some .memoryOutOfBounds ∧
    (after (State.reset.setI 0x1000) 0xD011).fault = some .memoryOutOfBounds ∧
    (after State.reset 0xE000).fault = some .unimplementedOpcode ∧
    (after (State.reset.setV 2 0x10) 0xE2A1).fault = some .invalidKeyIndex := by decide
theorem witness_ErrorsArePrecise :
    (State.reset.withFetchWord 16 0x00EE).fault = none ∧
    step (State.reset.withFetchWord 16 0x00EE) = .next (after State.reset 0x00EE) ∧
    (after State.reset 0x00EE).fault = some .stackUnderflow := ⟨rfl, rfl, rfl⟩
theorem witness_InstructionWritesOnlyItsRow : exec (.ldVxNn 1 2) State.reset = .next (State.reset.setV 1 2) := rfl
theorem witness_StepWritesNoKeyAndTimersOnlyByLoads :
    (after (State.reset.setV 3 0xFF) 0xF315).dt ≠ State.reset.dt ∧
    (after (State.reset.setV 3 0x02) 0xF318).st ≠ State.reset.st := by decide
theorem witness_DisplayAndSoundTimerAreInvisible :
    (∀ x y n, Instr.cls ≠ .drwVxVyN x y n) ∧ exec .cls State.reset = .next State.reset :=
  ⟨fun _ _ _ h => (nomatch h), rfl⟩
theorem witness_SelfJumpIsAFixedPoint :
    (State.reset.withFetchWord 16 0x1200).Fetches ∧
    decodeWord (State.reset.withFetchWord 16 0x1200).wordAtPc = .ok (.jpAddr 0x200) ∧
    (State.reset.withFetchWord 16 0x1200).pc.toNat = (0x200 : Addr12).toNat := by decide
theorem witness_CallPushesOrOverflows :
    ({ State.reset with sp := 15 } : State).sp.val < 16 ∧ ({ State.reset with sp := 16 } : State).sp.val = 16 := by decide
theorem witness_RetPopsOrUnderflows :
    0 < ({ State.reset with sp := 1 } : State).sp.val ∧ State.reset.sp.val = 0 := by decide
theorem witness_CallThenRetRoundTrips :
    State.reset.sp.val < 16 ∧
    (∃ t, exec (.callAddr 0x345) State.reset = .next t ∧ ∃ u, exec .ret (t.setPc 0x347) = .next u) :=
  ⟨by decide, _, rfl, _, rfl⟩
theorem witness_destination_not_vf : (14 : Nibble) ≠ 15 := by decide
theorem witness_BcdStoresThreeDigits :
    (State.reset.setI 4093).MemInv ∧ (State.reset.setI 4093).i.toNat + 2 ≤ 4095 := by decide
theorem witness_block_transfers :
    (State.reset.setI 4080).MemInv ∧ (State.reset.setI 4080).i.toNat + (15 : Nibble).toNat ≤ 4095 := by decide
theorem witness_BlockStoreThenLoadRestores :
    ∃ t, exec (.ldMemVx 1) (State.reset.setI 0x300) = .next t ∧
      ∃ u, exec (.ldVxMem 1) { t with v := Vector.replicate 16 7 } = .next u := ⟨_, rfl, _, rfl⟩
theorem witness_AccessBeyondMemoryLatches :
    (State.reset.setI 4094).i.toNat + 2 > 4095 ∧ (State.reset.setI 4081).i.toNat + (15 : Nibble).toNat > 4095 ∧
    (1 : Nibble).toNat > 0 ∧ (State.reset.setI 4096).i.toNat + (1 : Nibble).toNat - 1 > 4095 := by decide
theorem witness_DrwTogglesSpritePixels :
    ((0 : Nibble).toNat = 0 ∨ (State.reset.setI 0x1000).i.toNat + (0 : Nibble).toNat - 1 ≤ 4095) ∧
    ((15 : Nibble).toNat = 0 ∨ (State.reset.setI 4081).i.toNat + (15 : Nibble).toNat - 1 ≤ 4095) := by decide
-- both collision clauses: a set bit on a set pixel (G9), and none on a blank display (G5)
theorem witness_Drw_collision_clauses :
    (after { withData 0x300 [0x80] with px := State.reset.px.toggle 0 0 } 0xD011).getV 15 = 1 ∧
    (after (withData 0x300 [0x80]) 0xD011).getV 15 = 0 := by decide
theorem witness_DrawingTwiceErases :
    (0 : Nibble) ≠ 15 ∧ (1 : Nibble) ≠ 15 ∧ (withData 0x300 [0xFF]).i.toNat + (1 : Nibble).toNat - 1 ≤ 4095 ∧
    (∀ row col, (withData 0x300 [0xFF]).px.pixel row col = false) ∧
    (∃ t, exec (.drwVxVyN 0 1 1) (withData 0x300 [0xFF]) = .next t ∧ ∃ u, exec (.drwVxVyN 0 1 1) t = .next u) :=
  ⟨by decide, by decide, by decide, by decide, _, rfl, _, rfl⟩
theorem witness_KeySkipsTestTheLatch :
    ((State.reset.setV 2 15).getV 2).toNat = (15 : Nibble).toNat ∧
    ((withParams { defaultParams with keyIndexPolicy := .mask4 }).params.keyIndexPolicy = .mask4 ∧
      (((withParams { defaultParams with keyIndexPolicy := .mask4 }).setV 2 0x15).getV 2).toNat % 16 = (5 : Nibble).toNat) := by
  decide
theorem witness_KeySkipsBeyondTheLatchFail :
    (State.reset.setV 2 16).params.keyIndexPolicy = .fault ∧ ((State.reset.setV 2 16).getV 2).toNat > 15 := by decide
theorem witness_KeyWaitCompletesOnPress :
    (State.reset.withFetchWord 16 0xF20A).Fetches ∧
    decodeWord (State.reset.withFetchWord 16 0xF20A).wordAtPc = .ok (.ldVxK 2) ∧
    (State.reset.withFetchWord 16 0xF20A).keyPressed 7 = false ∧
    ((setKey 7 true State.reset).withFetchWord 16 0xF20A).keyPressed 7 = true := by decide
theorem witness_SetKey_clauses :
    waitingAtTop.waiting = true ∧ waitingAtTop.keyEvent = none ∧ waitingAtTop.keyPressed 0xC = false ∧
    State.reset.waiting = false := by decide
theorem witness_LoadRomCopiesOrRefuses :
    State.reset.MemInv ∧ (List.replicate 3585 (0xAB : Byte)).length > 3584 ∧
    (List.replicate 3584 (0xAB : Byte)).length ≤ 3584 :=
  ⟨by decide, by rw [List.length_replicate]; decide, by rw [List.length_replicate]⟩

end Sys2Proof.Machine.Tests
end

section
/-! PROOFS. The opcode map read as masks and patterns against the decoder and the encoder (30_encoding.md R74, R76, R82). A
row that covers a word fixes the fields its mask selects, and those are the fields the decoder branches on. -/

namespace Sys2Proof

/-! ## A word put together from its fields, some of them known -/

theorem wordNNN_of_fields {w : Word} {op : Nibble} (h1 : nibble1 w = op) : wordNNN op (fieldNnn w) = w :=
  h1 ▸ wordNNN_fields w

theorem wordXNN_of_fields {w : Word} {op : Nibble} {nn : Byte} (h1 : nibble1 w = op) (hnn : fieldNn w = nn) :
    wordXNN op (nibble2 w) nn = w :=
  h1 ▸ hnn ▸ wordXNN_fields w

theorem wordXYN_of_fields {w : Word} {op n : Nibble} (h1 : nibble1 w = op) (h4 : nibble4 w = n) :
    wordXYN op (nibble2 w) (nibble3 w) n = w :=
  h1 ▸ h4 ▸ wordXYN_fields w

/-! ## The rows of instructions -/

theorem rowOf_mem_opcodeRows (i : Instr) : rowOf i ∈ opcodeRows := by
  cases i <;> simp [opcodeRows, rowOf]

theorem exists_rowOf_of_mem {r : OpcodeRow} (h : r ∈ opcodeRows) : ∃ i, rowOf i = r := by
  obtain ⟨i, -, hi⟩ := List.mem_map.mp h
  exact ⟨i, hi⟩

theorem wordWellFormed_iff (w : Word) : wordWellFormed w = true ↔ ∃ i, (rowOf i).covers w = true := by
  rw [wordWellFormed, List.any_eq_true]
  constructor
  · rintro ⟨r, hr, hw⟩
    obtain ⟨i, rfl⟩ := exists_rowOf_of_mem hr
    exact ⟨i, hw⟩
  · rintro ⟨i, hw⟩
    exact ⟨rowOf i, rowOf_mem_opcodeRows i, hw⟩

open Laws in
/-- `EncodesToItsRow` for every instruction, by the formats of 30_encoding.md R72. -/
theorem rowOf_covers_encode (i : Instr) : (rowOf i).covers (encode i) = true := by
  cases i with
  | nop | cls | ret => rfl
  | jpAddr nnn | callAddr nnn | ldIAddr nnn | jpV0Addr nnn => exact covers_wordNNN _ _ nnn
  | seVxNn x nn | sneVxNn x nn | ldVxNn x nn | addVxNn x nn | rndVxNn x nn => exact covers_wordXNN _ _ x nn
  | drwVxVyN x y n => exact covers_wordXYN _ _ x y n
  | seVxVy x y | ldVxVy x y | orVxVy x y | andVxVy x y | xorVxVy x y | addVxVy x y | subVxVy x y | shrVx x y
  | subnVxVy x y | shlVx x y | sneVxVy x y => exact covers_wordXY _ _ x y _
  | skpVx x | sknpVx x | ldVxDt x | ldVxK x | ldDtVx x | ldStVx x | addIVx x | ldFVx x | ldBVx x | ldMemVx x
  | ldVxMem x => exact covers_wordX _ _ x _

/-! ## What a row's mask fixes of a word it covers -/

section
variable {r : OpcodeRow} {w : Word} (h : r.covers w = true)
include h

theorem eq_pattern_of_covers (hm : r.mask = BitVec.allOnes 16) : w = r.pattern := by
  rw [← eq_of_beq h, hm, BitVec.and_allOnes]

/-- Bits that are all under the mask are the pattern's. -/
theorem extractLsb'_of_covers {start len : Nat} (hm : r.mask.extractLsb' start len = BitVec.allOnes len) :
    w.extractLsb' start len = r.pattern.extractLsb' start len := by
  rw [← eq_of_beq h, BitVec.extractLsb'_and, hm, BitVec.and_allOnes]

theorem nibble1_of_covers (hm : nibble1 r.mask = BitVec.allOnes 4) : nibble1 w = nibble1 r.pattern :=
  extractLsb'_of_covers h hm

theorem nibble4_of_covers (hm : nibble4 r.mask = BitVec.allOnes 4) : nibble4 w = nibble4 r.pattern :=
  extractLsb'_of_covers h hm

theorem fieldNn_of_covers (hm : fieldNn r.mask = BitVec.allOnes 8) : fieldNn w = fieldNn r.pattern :=
  extractLsb'_of_covers h hm

end

/-! ## The decoder against the rows -/

/-- A decoded instruction encodes back to its word: each arm of the decoder has tested the fixed fields and kept the others. -/
theorem encode_of_decodeWord {w : Word} {i : Instr} (h : decodeWord w = .ok i) : encode i = w := by
  revert h
  fun_cases decodeWord w
  all_goals rintro ⟨⟩   -- the refusing arms go
  all_goals simp [encode, wordNNN_of_fields, wordXNN_of_fields, wordXYN_of_fields, *]

theorem rowOf_covers_of_decodeWord {w : Word} {i : Instr} (h : decodeWord w = .ok i) : (rowOf i).covers w = true :=
  encode_of_decodeWord h ▸ rowOf_covers_encode i

/-- A covered word decodes. The cases are grouped by the row's mask: 0xFFFF, 0xF000, 0xF00F and 0xF0FF. -/
theorem exists_decodeWord_of_covers {w : Word} {i : Instr} (h : (rowOf i).covers w = true) :
    ∃ j, decodeWord w = .ok j := by
  cases i with
  | nop | cls | ret =>
    rw [eq_pattern_of_covers h rfl]
    exact ⟨_, rfl⟩
  | jpAddr | callAddr | ldIAddr | jpV0Addr | seVxNn | sneVxNn | ldVxNn | addVxNn | rndVxNn | drwVxVyN =>
    rw [rowOf] at h
    rw [decodeWord, nibble1_of_covers h rfl]
    exact ⟨_, rfl⟩
  | seVxVy | ldVxVy | orVxVy | andVxVy | xorVxVy | addVxVy | subVxVy | shrVx | subnVxVy | shlVx | sneVxVy =>
    rw [rowOf] at h
    rw [decodeWord, nibble1_of_covers h rfl, nibble4_of_covers h rfl]
    exact ⟨_, rfl⟩
  | skpVx | sknpVx | ldVxDt | ldVxK | ldDtVx | ldStVx | addIVx | ldFVx | ldBVx | ldMemVx | ldVxMem =>
    rw [rowOf] at h
    rw [decodeWord, nibble1_of_covers h rfl, fieldNn_of_covers h rfl]
    exact ⟨_, rfl⟩

/-- Settles O3: a word of a row decodes because the row's mask fixes what the decoder branches on, and a decoded instruction's
row covers its word because it encodes back to it. -/
theorem decoderFollowsOpcodeTable : Obligations.DecoderFollowsOpcodeTable := by
  intro w
  constructor
  · intro hw
    obtain ⟨i, hi⟩ := (wordWellFormed_iff w).mp hw
    obtain ⟨j, hj⟩ := exists_decodeWord_of_covers hi
    exact ⟨j, hj, rowOf_covers_of_decodeWord hj⟩
  · intro hw
    cases hd : decodeWord w with
    | error e => rw [Machine.eq_of_decodeWord_error hd]
    | ok i =>
      have : wordWellFormed w = true := (wordWellFormed_iff w).mpr ⟨i, rowOf_covers_of_decodeWord hd⟩
      rw [hw] at this
      cases this

end Sys2Proof
end

section
/-! PROOFS. NOP and the four skips (41_control.md R100, R104 to R107). A skip is `State.skipIf` on its condition, so its effect and
its frame are stated once, for every instruction that is one. -/

namespace Sys2Proof.Machine

/-! ## What each instruction answers -/

@[simp] theorem exec_nop (s : State) : exec .nop s = .next s := rfl

@[simp] theorem exec_seVxNn (x : Nibble) (nn : Byte) (s : State) :
    exec (.seVxNn x nn) s = .next (s.skipIf (decide (s.getV x = nn))) := rfl

@[simp] theorem exec_sneVxNn (x : Nibble) (nn : Byte) (s : State) :
    exec (.sneVxNn x nn) s = .next (s.skipIf (decide (s.getV x ≠ nn))) := rfl

@[simp] theorem exec_seVxVy (x y : Nibble) (s : State) :
    exec (.seVxVy x y) s = .next (s.skipIf (decide (s.getV x = s.getV y))) := rfl

@[simp] theorem exec_sneVxVy (x y : Nibble) (s : State) :
    exec (.sneVxVy x y) s = .next (s.skipIf (decide (s.getV x ≠ s.getV y))) := rfl

/-! ## The effect and the frame of a skip -/

section
variable {i : Instr} {s : State} {P : Prop} [Decidable P]

/-- An instruction that is a skip moves `pc` on exactly when its condition holds and keeps everything else. -/
theorem skips_of_exec_eq (h : exec i s = .next (s.skipIf (decide P))) :
    ∃ t, exec i s = .next t ∧ t.pc = (if P then s.pc + 2 else s.pc) ∧ SameOutside (fun p => p = .pc) s t := by
  have hpc : (s.skipIf (decide P)).pc = if P then s.pc + 2 else s.pc := by simp
  exact ⟨_, h, hpc, sameOutside_skipIf s _⟩

/-- The same of a skip on the negated condition, which skips when `P` fails. -/
theorem skips_of_exec_eq_not (h : exec i s = .next (s.skipIf (decide (¬ P)))) :
    ∃ t, exec i s = .next t ∧ t.pc = (if P then s.pc else s.pc + 2) ∧ SameOutside (fun p => p = .pc) s t := by
  rw [← ite_not]
  exact skips_of_exec_eq h

end

/-- Settles O27: the word is the encoder's row, and `execNop` answers its own state. -/
theorem nopChangesNothing : Obligations.NopChangesNothing := ⟨rfl, exec_nop⟩

/-- Settles O34: the encodings are the formats' own (30_encoding.md R72), and each of the four is a skip. -/
theorem skipsAdvanceExactlyOnCondition : Obligations.SkipsAdvanceExactlyOnCondition := by
  intro x y nn s
  refine ⟨⟨rfl, rfl, rfl, rfl⟩, ?se, ?sne, ?seReg, ?sneReg⟩
  case se => exact skips_of_exec_eq (exec_seVxNn x nn s)
  case sne => exact skips_of_exec_eq_not (exec_sneVxNn x nn s)
  case seReg => exact skips_of_exec_eq (exec_seVxVy x y s)
  case sneReg => exact skips_of_exec_eq_not (exec_sneVxVy x y s)

end Sys2Proof.Machine
end

section
/-! PROOFS. The loads, ADD Vx,nn and the logic instructions (42_load_alu.md R120 to R125). Each is one `State.setV` of its result,
so that only its register changes is stated once, for every instruction that is one; `x = 15` is a register as any other. -/

namespace Sys2Proof.Machine

/-! ## What each instruction answers -/

@[simp] theorem exec_ldVxNn (x : Nibble) (nn : Byte) (s : State) : exec (.ldVxNn x nn) s = .next (s.setV x nn) := rfl

@[simp] theorem exec_addVxNn (x : Nibble) (nn : Byte) (s : State) :
    exec (.addVxNn x nn) s = .next (s.setV x (s.getV x + nn)) := rfl

@[simp] theorem exec_ldVxVy (x y : Nibble) (s : State) : exec (.ldVxVy x y) s = .next (s.setV x (s.getV y)) := rfl

@[simp] theorem exec_orVxVy (x y : Nibble) (s : State) :
    exec (.orVxVy x y) s = .next (s.setV x (s.getV x ||| s.getV y)) := rfl

@[simp] theorem exec_andVxVy (x y : Nibble) (s : State) :
    exec (.andVxVy x y) s = .next (s.setV x (s.getV x &&& s.getV y)) := rfl

@[simp] theorem exec_xorVxVy (x y : Nibble) (s : State) :
    exec (.xorVxVy x y) s = .next (s.setV x (s.getV x ^^^ s.getV y)) := rfl

/-! ## The effect and the frame of a register write -/

section
variable {i : Instr} {s : State} {x : Nibble} {b : Byte}

/-- An instruction that is a register write puts its value there and keeps everything else. -/
theorem writesV_of_exec_eq (h : exec i s = .next (s.setV x b)) :
    ∃ t, exec i s = .next t ∧ t.getV x = b ∧ SameOutside (fun p => p = .v x) s t :=
  ⟨_, h, State.getV_setV_self s x b, sameOutside_setV s x b⟩

/-- The same of a value that is given bit by bit from the bits of two registers. -/
theorem writesV_bitwise_of_exec_eq {y : Nibble} {f : Bool → Bool → Bool} (h : exec i s = .next (s.setV x b))
    (hb : ∀ k, b.getLsbD k = f ((s.getV x).getLsbD k) ((s.getV y).getLsbD k)) :
    ∃ t, exec i s = .next t ∧
      (∀ k < 8, (t.getV x).getLsbD k = f ((s.getV x).getLsbD k) ((s.getV y).getLsbD k)) ∧
      SameOutside (fun p => p = .v x) s t := by
  obtain ⟨t, ht, rfl, hframe⟩ := writesV_of_exec_eq h
  exact ⟨t, ht, fun k _ => hb k, hframe⟩

end

/-- Settles O35: the encodings are the formats' own (30_encoding.md R72), and each of the three is a register write; the sum of
two bytes is their sum modulo 256. -/
theorem loadsAndAddImmediateWriteOnlyVx : Obligations.LoadsAndAddImmediateWriteOnlyVx := by
  intro x y nn s
  refine ⟨⟨rfl, rfl, rfl⟩, ?ldImm, ?addImm, ?ldReg⟩
  case ldImm => exact writesV_of_exec_eq (exec_ldVxNn x nn s)
  case addImm =>
    obtain ⟨t, ht, hsum, hframe⟩ := writesV_of_exec_eq (exec_addVxNn x nn s)
    exact ⟨t, ht, hsum ▸ BitVec.toNat_add _ _, hframe⟩
  case ldReg => exact writesV_of_exec_eq (exec_ldVxVy x y s)

/-- Settles O36: the encodings are the formats' own (30_encoding.md R72), and each of the three is a register write of a byte
whose bits are those of the library's OR, AND and exclusive OR. -/
theorem logicIsBitwiseAndWritesNoFlag : Obligations.LogicIsBitwiseAndWritesNoFlag := by
  intro x y s
  refine ⟨⟨rfl, rfl, rfl⟩, ?or, ?and, ?xor⟩
  case or => exact writesV_bitwise_of_exec_eq (exec_orVxVy x y s) fun _ => BitVec.getLsbD_or
  case and => exact writesV_bitwise_of_exec_eq (exec_andVxVy x y s) fun _ => BitVec.getLsbD_and
  case xor => exact writesV_bitwise_of_exec_eq (exec_xorVxVy x y s) fun _ => BitVec.getLsbD_xor

end Sys2Proof.Machine
end

section
/-! PROOFS. LD I,addr, ADD I,Vx and LD F,Vx (43_index_memory.md R140 to R142). Each is one `State.setI` of its address, so that only
`I` changes is stated once, for every instruction that is one. -/

namespace Sys2Proof.Machine

/-! ## What each instruction answers -/

@[simp] theorem exec_ldIAddr (nnn : Addr12) (s : State) : exec (.ldIAddr nnn) s = .next (s.setI (addrImm nnn)) := rfl

@[simp] theorem exec_addIVx (x : Nibble) (s : State) :
    exec (.addIVx x) s = .next (s.setI (s.i + wordOfByte (s.getV x))) := rfl

@[simp] theorem exec_ldFVx (x : Nibble) (s : State) : exec (.ldFVx x) s = .next (s.setI (glyphAddr (s.getV x))) := rfl

/-! ## The effect and the frame of a write of the address register -/

/-- An instruction that is a write of `I` puts its address there and keeps everything else. -/
theorem writesI_of_exec_eq {i : Instr} {s : State} {w : Word} {n : Nat} (h : exec i s = .next (s.setI w))
    (hw : w.toNat = n) : ∃ t, exec i s = .next t ∧ t.i.toNat = n ∧ SameOutside (fun p => p = .i) s t :=
  ⟨_, h, hw, sameOutside_setI s w⟩

/-- ADD I,Vx keeps all 16 bits of the sum (43_index_memory.md R141). -/
theorem toNat_add_wordOfByte (w : Word) (b : Byte) : (w + wordOfByte b).toNat = (w.toNat + b.toNat) % 65536 := by
  rw [BitVec.toNat_add, toNat_wordOfByte]

/-- Settles O42: the encodings are the formats' own (30_encoding.md R72), and each of the three is a write of `I`. -/
theorem addressRegisterWrites : Obligations.AddressRegisterWrites := by
  intro nnn x s
  refine ⟨⟨rfl, rfl, rfl⟩, ?ldI, ?addI, ?ldF⟩
  case ldI => exact writesI_of_exec_eq (exec_ldIAddr nnn s) (toNat_addrImm nnn)
  case addI => exact writesI_of_exec_eq (exec_addIVx x s) (toNat_add_wordOfByte s.i (s.getV x))
  case ldF => exact writesI_of_exec_eq (exec_ldFVx x s) (toNat_glyphAddr (s.getV x))

end Sys2Proof.Machine
end

section
/-! PROOFS. CLS (44_display.md R150). It replaces the display alone, by the blank one. -/

namespace Sys2Proof.Machine

@[simp] theorem exec_cls (s : State) : exec .cls s = .next { s with px := blankDisplay } := rfl

/-- Clearing the display changes pixels only. -/
theorem sameOutside_blankDisplay (s : State) :
    SameOutside (fun p => ∃ row col, p = .pixel row col) s { s with px := blankDisplay } :=
  sameOutside_px s blankDisplay fun row col hp => absurd ⟨row, col, rfl⟩ hp

/-- Settles O48: the word is the encoder's row, and `execCls` puts the blank display, whose pixels are all 0, in place of the old
one. -/
theorem clsClearsEveryPixel : Obligations.ClsClearsEveryPixel :=
  ⟨rfl, fun s => ⟨_, exec_cls s, Display.pixel_blankDisplay, sameOutside_blankDisplay s⟩⟩

end Sys2Proof.Machine
end

section
/-! PROOFS. The decoder and the encoder undo each other, and the rows of the opcode map exclude each other
(30_encoding.md R70 to R82). -/

namespace Sys2Proof

/-- Settles O1: the cases are grouped by format (30_encoding.md R72); the fields the decoder branches on and keeps are
the ones the format wrote (the `nibble` and `field` lemmas of Laws/Decode.lean). -/
theorem decodeInvertsEncode : Obligations.DecodeInvertsEncode := by
  intro i
  cases i with
  | nop | cls | ret => rfl
  | jpAddr | callAddr | ldIAddr | jpV0Addr => simp [encode, decodeWord]
  | seVxNn | sneVxNn | ldVxNn | addVxNn | rndVxNn | skpVx | sknpVx | ldVxDt | ldVxK | ldDtVx | ldStVx | addIVx | ldFVx
  | ldBVx | ldMemVx | ldVxMem => simp [encode, decodeWord]
  | seVxVy | ldVxVy | orVxVy | andVxVy | xorVxVy | addVxVy | subVxVy | shrVx | subnVxVy | shlVx | sneVxVy
  | drwVxVyN => simp [encode, decodeWord]

/-- Settles O2: each arm of the decoder has tested the fixed fields of the word and kept the others. -/
theorem encodeInvertsDecode : Obligations.EncodeInvertsDecode := fun _ _ => encode_of_decodeWord

/-- Two rows of the map whose patterns agree on the bits both masks fix are one row. -/
theorem eq_of_pattern_and_mask_eq : ∀ r₁ ∈ opcodeRows, ∀ r₂ ∈ opcodeRows,
    r₁.pattern &&& r₂.mask = r₂.pattern &&& r₁.mask → r₁ = r₂ := by decide

/-- Two rows that cover one word have patterns that agree on the bits both masks fix. -/
theorem OpcodeRow.pattern_and_mask_comm {r₁ r₂ : OpcodeRow} {w : Word} (h₁ : r₁.covers w = true)
    (h₂ : r₂.covers w = true) : r₁.pattern &&& r₂.mask = r₂.pattern &&& r₁.mask := by
  rw [← eq_of_beq h₁, ← eq_of_beq h₂, BitVec.and_assoc, BitVec.and_comm r₁.mask, BitVec.and_assoc]

/-- Settles O4: the rows that cover a word agree where both their masks are set, and no two rows of the map do. -/
theorem opcodeRowsDisjoint : Obligations.OpcodeRowsDisjoint :=
  ⟨rfl, fun _ r₁ hr₁ r₂ hr₂ h₁ h₂ => eq_of_pattern_and_mask_eq r₁ hr₁ r₂ hr₂ (OpcodeRow.pattern_and_mask_comm h₁ h₂)⟩

/-- Settles O5: the decoder computes on the fixed words. -/
theorem workedEncodingsDecode : Obligations.WorkedEncodingsDecode := ⟨rfl, rfl, rfl, rfl, rfl, rfl⟩

/-- Settles O6: the word of two bytes is their value, high byte first, and the decoder takes the first two. -/
theorem instructionIsTwoBytesHighFirst : Obligations.InstructionIsTwoBytesHighFirst := by
  intro hi lo rest i h
  rw [← wordOfBytes_eq] at h
  rw [decode, h]

end Sys2Proof
end

section
/-! PROOFS. What every instruction answers, once: its own error, which latches and changes nothing else, or a next state
that keeps all but the instruction's row of 10_state.md R37. The whole-machine statements are derived from this. -/

namespace Sys2Proof.Machine

/-! ## What each instruction that cannot fail answers -/

@[simp] theorem exec_jpAddr (nnn : Addr12) (s : State) : exec (.jpAddr nnn) s = .next (s.setPc (addrImm nnn)) := rfl

@[simp] theorem exec_jpV0Addr (nnn : Addr12) (s : State) :
    exec (.jpV0Addr nnn) s = .next (s.setPc (wordOfByte (s.getV 0) + addrImm nnn)) := rfl

@[simp] theorem exec_addVxVy (x y : Nibble) (s : State) :
    exec (.addVxVy x y) s =
      .next (s.setFlagAndResult x (carryFlag (s.getV x) (s.getV y)) (s.getV x + s.getV y)) := rfl

@[simp] theorem exec_subVxVy (x y : Nibble) (s : State) :
    exec (.subVxVy x y) s =
      .next (s.setFlagAndResult x (noBorrowFlag (s.getV x) (s.getV y)) (s.getV x - s.getV y)) := rfl

@[simp] theorem exec_subnVxVy (x y : Nibble) (s : State) :
    exec (.subnVxVy x y) s =
      .next (s.setFlagAndResult x (noBorrowFlag (s.getV y) (s.getV x)) (s.getV y - s.getV x)) := rfl

@[simp] theorem exec_shrVx (x y : Nibble) (s : State) :
    exec (.shrVx x y) s = .next (s.setFlagAndResult x (rightBitFlag (s.getV x)) (s.getV x >>> 1)) := rfl

@[simp] theorem exec_shlVx (x y : Nibble) (s : State) :
    exec (.shlVx x y) s = .next (s.setFlagAndResult x (leftBitFlag (s.getV x)) (s.getV x <<< 1)) := rfl

@[simp] theorem exec_rndVxNn (x : Nibble) (nn : Byte) (s : State) :
    exec (.rndVxNn x nn) s = .next (s.draw.2.setV x (Config.draw8 s.draws &&& nn)) := rfl

@[simp] theorem exec_ldVxDt (x : Nibble) (s : State) : exec (.ldVxDt x) s = .next (s.setV x s.dt) := rfl

@[simp] theorem exec_ldVxK (x : Nibble) (s : State) : exec (.ldVxK x) s = .next (s.beginKeyWait x) := rfl

@[simp] theorem exec_ldDtVx (x : Nibble) (s : State) : exec (.ldDtVx x) s = .next (s.setDt (s.getV x)) := rfl

@[simp] theorem exec_ldStVx (x : Nibble) (s : State) : exec (.ldStVx x) s = .next (s.setSt (s.getV x)) := rfl

/-! ## What each instruction that can fail answers when it does not -/

theorem exec_callAddr_of_lt {s : State} (nnn : Addr12) (h : s.sp.val < 16) :
    exec (.callAddr nnn) s =
      .next { s with stack := s.stack.set s.sp.val s.pc h, sp := ⟨s.sp.val + 1, by omega⟩, pc := addrImm nnn } := by
  simp only [exec, execCallAddr, State.push_of_lt _ h]
  rfl

theorem exec_ret_of_pos {s : State} (h : 0 < s.sp.val) :
    exec .ret s = .next { s with sp := ⟨s.sp.val - 1, by omega⟩, pc := s.stack[s.sp.val - 1] } := by
  simp only [exec, execRet, State.pop_of_pos h]
  rfl

theorem exec_skpVx_of_keyIndex {s : State} {x k : Nibble} (h : keyIndex s.params (s.getV x) = some k) :
    exec (.skpVx x) s = .next (s.skipIf (s.keyPressed k)) := by simp only [exec, execSkpVx, h]

theorem exec_sknpVx_of_keyIndex {s : State} {x k : Nibble} (h : keyIndex s.params (s.getV x) = some k) :
    exec (.sknpVx x) s = .next (s.skipIf (!s.keyPressed k)) := by simp only [exec, execSknpVx, h]

theorem exec_ldBVx_of_le {s : State} (x : Nibble) (h : s.i.toNat + 2 ≤ 4095) :
    exec (.ldBVx x) s = .next (s.writeBytes s.i.toNat (bcdDigits (s.getV x))) :=
  if_pos ((rangeInMemory_iff _ _).mpr (by rw [State.dataAddr]; omega))

theorem rangeInMemory_blockSize {a : Nat} {x : Nibble} (h : a + x.toNat ≤ 4095) :
    rangeInMemory a (blockSize x) = true := (rangeInMemory_iff _ _).mpr (by rw [blockSize]; omega)

theorem exec_ldMemVx_of_le {s : State} {x : Nibble} (h : s.i.toNat + x.toNat ≤ 4095) :
    exec (.ldMemVx x) s = .next (s.writeBytes s.i.toNat (s.blockRegs x)) := if_pos (rangeInMemory_blockSize h)

theorem exec_ldVxMem_of_le {s : State} {x : Nibble} (h : s.i.toNat + x.toNat ≤ 4095) :
    exec (.ldVxMem x) s = .next (s.loadBlock x s.i.toNat) := if_pos (rangeInMemory_blockSize h)

theorem exec_drwVxVyN_of_le {s : State} {n : Nibble} (x y : Nibble)
    (h : n.toNat = 0 ∨ s.i.toNat + n.toNat - 1 ≤ 4095) :
    exec (.drwVxVyN x y n) s =
      .next (State.setV { s with px := (s.drawing x y n).px } vf (flagByte (s.drawing x y n).hit)) :=
  if_pos ((rangeInMemory_iff _ _).mpr (by rw [State.dataAddr]; omega))

/-! ## When an instruction raises an error (60_exceptions.md R170 to R177) -/

/-- The causes of an instruction's own error. -/
inductive Raises (s : State) : Instr → ErrorKind → Prop
  | ret (h : s.sp.val = 0) : Raises s .ret .stackUnderflow
  | callAddr (nnn : Addr12) (h : s.sp.val = 16) : Raises s (.callAddr nnn) .stackOverflow
  | skpVx (x : Nibble) (hp : s.params.keyIndexPolicy = .fault) (hx : (s.getV x).toNat > 15) :
    Raises s (.skpVx x) .invalidKeyIndex
  | sknpVx (x : Nibble) (hp : s.params.keyIndexPolicy = .fault) (hx : (s.getV x).toNat > 15) :
    Raises s (.sknpVx x) .invalidKeyIndex
  | ldBVx (x : Nibble) (h : s.i.toNat + 2 > 4095) : Raises s (.ldBVx x) .memoryOutOfBounds
  | ldMemVx (x : Nibble) (h : s.i.toNat + x.toNat > 4095) : Raises s (.ldMemVx x) .memoryOutOfBounds
  | ldVxMem (x : Nibble) (h : s.i.toNat + x.toNat > 4095) : Raises s (.ldVxMem x) .memoryOutOfBounds
  | drwVxVyN (x y n : Nibble) (hn : n.toNat > 0) (h : s.i.toNat + n.toNat - 1 > 4095) :
    Raises s (.drwVxVyN x y n) .memoryOutOfBounds

theorem not_rangeInMemory {a n : Nat} (hn : n > 0) (h : a + n > 4096) : ¬ rangeInMemory a n = true := by
  rw [rangeInMemory_iff]; omega

/-- An error an instruction raises latches and changes nothing else. -/
theorem exec_of_raises {s : State} {i : Instr} {kind : ErrorKind} (h : Raises s i kind) :
    exec i s = .next { s with fault := some kind, faultWord := 0 } := by
  cases h with
  | ret h =>
    simp only [exec, execRet, State.pop_of_empty h]
    rfl
  | callAddr nnn h =>
    simp only [exec, execCallAddr, State.push_of_full _ h]
    rfl
  | skpVx x hp hx =>
    simp only [exec, execSkpVx, (keyIndex_eq_none_iff _ _).mpr ⟨hp, hx⟩]
    rfl
  | sknpVx x hp hx =>
    simp only [exec, execSknpVx, (keyIndex_eq_none_iff _ _).mpr ⟨hp, hx⟩]
    rfl
  | ldBVx x h => exact if_neg (not_rangeInMemory (by omega) (by rw [State.dataAddr]; omega))
  | ldMemVx x h | ldVxMem x h =>
    exact if_neg (not_rangeInMemory (by rw [blockSize]; omega) (by rw [State.dataAddr, blockSize]; omega))
  | drwVxVyN x y n hn h => exact if_neg (not_rangeInMemory hn (by rw [State.dataAddr]; omega))

/-- No error is raised by the instruction on the state. -/
def Quiet (i : Instr) (s : State) : Prop := ∀ kind, ¬ Raises s i kind

theorem raises_or_quiet (i : Instr) (s : State) : (∃ kind, Raises s i kind) ∨ Quiet i s :=
  (Classical.em _).imp_right not_exists.mp

/-! ## What each instruction that can fail answers when it raises no error -/

section
variable {s : State} {x y n : Nibble} {nnn : Addr12}

theorem exec_ret_of_quiet (h : Quiet .ret s) :
    ∃ hn, exec .ret s = .next { s with sp := ⟨s.sp.val - 1, hn⟩, pc := s.stack[s.sp.val - 1] } := by
  have hpos : 0 < s.sp.val := Nat.pos_of_ne_zero fun h0 => h _ (.ret h0)
  exact ⟨by omega, exec_ret_of_pos hpos⟩

theorem exec_callAddr_of_quiet (h : Quiet (.callAddr nnn) s) :
    ∃ (hsp : s.sp.val < 16) (hn : s.sp.val + 1 < 17), exec (.callAddr nnn) s =
      .next { s with stack := s.stack.set s.sp.val s.pc hsp, sp := ⟨s.sp.val + 1, hn⟩, pc := addrImm nnn } := by
  have hlt : s.sp.val < 16 := Nat.lt_of_not_le fun h0 => h _ (.callAddr nnn (by omega))
  exact ⟨hlt, by omega, exec_callAddr_of_lt nnn hlt⟩

theorem exec_skpVx_of_quiet (h : Quiet (.skpVx x) s) :
    ∃ k, keyIndex s.params (s.getV x) = some k ∧ exec (.skpVx x) s = .next (s.skipIf (s.keyPressed k)) := by
  cases hk : keyIndex s.params (s.getV x) with
  | none =>
    obtain ⟨hp, hx⟩ := (keyIndex_eq_none_iff _ _).mp hk
    exact absurd (.skpVx x hp hx) (h _)
  | some k => exact ⟨k, rfl, exec_skpVx_of_keyIndex hk⟩

theorem exec_sknpVx_of_quiet (h : Quiet (.sknpVx x) s) :
    ∃ k, keyIndex s.params (s.getV x) = some k ∧ exec (.sknpVx x) s = .next (s.skipIf (!s.keyPressed k)) := by
  cases hk : keyIndex s.params (s.getV x) with
  | none =>
    obtain ⟨hp, hx⟩ := (keyIndex_eq_none_iff _ _).mp hk
    exact absurd (.sknpVx x hp hx) (h _)
  | some k => exact ⟨k, rfl, exec_sknpVx_of_keyIndex hk⟩

theorem exec_ldBVx_of_quiet (h : Quiet (.ldBVx x) s) :
    s.i.toNat + 2 ≤ 4095 ∧ exec (.ldBVx x) s = .next (s.writeBytes s.i.toNat (bcdDigits (s.getV x))) := by
  have hle : s.i.toNat + 2 ≤ 4095 := Nat.le_of_not_gt fun h0 => h _ (.ldBVx x h0)
  exact ⟨hle, exec_ldBVx_of_le x hle⟩

theorem exec_ldMemVx_of_quiet (h : Quiet (.ldMemVx x) s) :
    s.i.toNat + x.toNat ≤ 4095 ∧ exec (.ldMemVx x) s = .next (s.writeBytes s.i.toNat (s.blockRegs x)) := by
  have hle : s.i.toNat + x.toNat ≤ 4095 := Nat.le_of_not_gt fun h0 => h _ (.ldMemVx x h0)
  exact ⟨hle, exec_ldMemVx_of_le hle⟩

theorem exec_ldVxMem_of_quiet (h : Quiet (.ldVxMem x) s) :
    exec (.ldVxMem x) s = .next (s.loadBlock x s.i.toNat) :=
  exec_ldVxMem_of_le (Nat.le_of_not_gt fun h0 => h _ (.ldVxMem x h0))

theorem exec_drwVxVyN_of_quiet (h : Quiet (.drwVxVyN x y n) s) :
    exec (.drwVxVyN x y n) s =
      .next (State.setV { s with px := (s.drawing x y n).px } vf (flagByte (s.drawing x y n).hit)) :=
  exec_drwVxVyN_of_le x y (Classical.byContradiction fun h0 => h _ (.drwVxVyN x y n (by omega) (by omega)))

end

/-- The kinds an instruction raises are in its row of `writes`. -/
theorem Raises.writes_latch {s : State} {i : Instr} {kind : ErrorKind} (h : Raises s i kind) {p : Part}
    (hp : isLatch p) : writes i s p := by
  cases h <;> simp [writes, hp]

theorem Raises.ne_romTooLarge {s : State} {i : Instr} {kind : ErrorKind} (h : Raises s i kind) :
    kind ≠ .romTooLarge := by
  cases h <;> decide

theorem Raises.ne_unimplementedOpcode {s : State} {i : Instr} {kind : ErrorKind} (h : Raises s i kind) :
    kind ≠ .unimplementedOpcode := by
  cases h <;> decide

/-! ## The frames of the operations that write more than one piece -/

theorem sameOutside_call (s : State) (h : s.sp.val < 16) (w ret : Word) :
    SameOutside (fun p => p = .stackSlot ⟨s.sp.val, h⟩ ∨ p = .sp ∨ p = .pc) s
      { s with stack := s.stack.set s.sp.val ret h, sp := ⟨s.sp.val + 1, by omega⟩, pc := w } := by
  intro p hp
  cases p with
  | stackSlot k =>
    have hk : s.sp.val ≠ k.val := fun e => hp (.inl (congrArg _ (Fin.ext e.symm)))
    exact Vector.getElem_set_ne h k.isLt hk
  | sp | pc => exact absurd (by simp) hp
  | _ => rfl

theorem sameOutside_ret (s : State) (n : Fin 17) (w : Word) :
    SameOutside (fun p => p = .sp ∨ p = .pc) s { s with sp := n, pc := w } := by
  intro p hp
  cases p with
  | sp | pc => exact absurd (by simp) hp
  | _ => rfl

theorem sameOutside_draw (s : State) : SameOutside (fun p => p = .draws) s s.draw.2 := by
  intro p hp
  cases p with
  | draws => exact absurd rfl hp
  | _ => rfl

theorem sameOutside_rnd (s : State) (x : Nibble) (b : Byte) :
    SameOutside (fun p => p = .v x ∨ p = .draws) s (s.draw.2.setV x b) :=
  ((sameOutside_draw s).mono fun _ => .inr).trans ((sameOutside_setV _ x b).mono fun _ => .inl)

/-- A pixel that the sprite does not cover is kept. -/
theorem State.pixel_drawing_of_off (s : State) (x y n : Nibble) {row : Fin 32} {col : Fin 64}
    (hoff : ∀ r k, r < n.toNat → k < 8 →
      ¬ (row = wrapRow (spriteRow (s.getV y)) r ∧ col = wrapCol (spriteCol (s.getV x)) k)) :
    (s.drawing x y n).px.pixel row col = s.px.pixel row col :=
  Drawing.pixel_plotSprite_of_ne _ _ _ _ _ _ _ _ fun r k _ hr hk => hoff r k (by simpa using hr) hk

/-- A sprite changes the pixels it covers. -/
theorem sameOutside_drawing (s : State) (x y n : Nibble) (flag : Byte) :
    SameOutside (fun p => p = .v 15 ∨ ∃ r k, r < n.toNat ∧ k < 8 ∧
        p = .pixel (wrapRow (spriteRow (s.getV y)) r) (wrapCol (spriteCol (s.getV x)) k)) s
      (State.setV { s with px := (s.drawing x y n).px } vf flag) := by
  refine SameOutside.trans (sameOutside_px s _ fun row col hp => ?_) ((sameOutside_setV _ vf flag).mono fun _ => .inl)
  refine State.pixel_drawing_of_off s x y n fun r k hr hk ⟨hrow, hcol⟩ => hp (.inr ⟨r, k, hr, hk, ?_⟩)
  rw [hrow, hcol]

/-! ## Every instruction -/

/-- An instruction's row of 10_state.md R37 without the error latch. -/
def writesQuietly (i : Instr) (s : State) (p : Part) : Prop := writes i s p ∧ ¬ isLatch p

/-- The form the cases below take: what the instruction answers, and the frame of the operation it is. -/
theorem writesQuietly_of_frame {i : Instr} {s t : State} {A : Part → Prop} (ht : exec i s = .next t)
    (hframe : SameOutside A s t)
    (hA : ∀ p, A p → writesQuietly i s p := by simp [writesQuietly, writes, isLatch]) :
    ∃ t, exec i s = .next t ∧ SameOutside (writesQuietly i s) s t := ⟨t, ht, hframe.mono hA⟩

/-- An instruction that raises no error writes its own row and leaves the latch. -/
theorem exec_writes_of_quiet {i : Instr} {s : State} (hq : Quiet i s) :
    ∃ t, exec i s = .next t ∧ SameOutside (writesQuietly i s) s t := by
  cases i with
  | nop => exact writesQuietly_of_frame rfl (SameOutside.refl (fun _ => False) s) (fun _ => False.elim)
  | cls =>
    refine writesQuietly_of_frame rfl (sameOutside_blankDisplay s) ?_
    simp +contextual [writesQuietly, writes, isLatch]
  | jpAddr | jpV0Addr => exact writesQuietly_of_frame rfl (sameOutside_setPc s _)
  | seVxNn | sneVxNn | seVxVy | sneVxVy => exact writesQuietly_of_frame rfl (sameOutside_skipIf s _)
  | ldVxNn | addVxNn | ldVxVy | orVxVy | andVxVy | xorVxVy | ldVxDt =>
    exact writesQuietly_of_frame rfl (sameOutside_setV s _ _)
  | addVxVy | subVxVy | subnVxVy | shrVx | shlVx =>
    exact writesQuietly_of_frame rfl (sameOutside_setFlagAndResult s _ _ _)
  | ldIAddr | addIVx | ldFVx => exact writesQuietly_of_frame rfl (sameOutside_setI s _)
  | rndVxNn => exact writesQuietly_of_frame rfl (sameOutside_rnd s _ _)
  | ldVxK => exact writesQuietly_of_frame rfl (sameOutside_beginKeyWait s _)
  | ldDtVx => exact writesQuietly_of_frame rfl (sameOutside_setDt s _)
  | ldStVx => exact writesQuietly_of_frame rfl (sameOutside_setSt s _)
  | ret =>
    obtain ⟨_, ht⟩ := exec_ret_of_quiet hq
    exact writesQuietly_of_frame ht (sameOutside_ret s _ _)
  | callAddr nnn =>
    obtain ⟨hsp, _, ht⟩ := exec_callAddr_of_quiet hq
    exact writesQuietly_of_frame ht (sameOutside_call s hsp _ _)
  | skpVx x =>
    obtain ⟨k, -, ht⟩ := exec_skpVx_of_quiet hq
    exact writesQuietly_of_frame ht (sameOutside_skipIf s _)
  | sknpVx x =>
    obtain ⟨k, -, ht⟩ := exec_sknpVx_of_quiet hq
    exact writesQuietly_of_frame ht (sameOutside_skipIf s _)
  | ldBVx x =>
    refine writesQuietly_of_frame (exec_ldBVx_of_quiet hq).2 (sameOutside_writeBytes s _ _) ?_
    rintro p ⟨k, hk, rfl⟩
    exact ⟨.inl ⟨k, hk, rfl⟩, by simp [isLatch]⟩
  | ldMemVx x =>
    refine writesQuietly_of_frame (exec_ldMemVx_of_quiet hq).2 (sameOutside_writeBytes s _ _) ?_
    rintro p ⟨k, hk, rfl⟩
    rw [State.length_blockRegs] at hk
    exact ⟨.inl ⟨k, by omega, rfl⟩, by simp [isLatch]⟩
  | ldVxMem x =>
    refine writesQuietly_of_frame (exec_ldVxMem_of_quiet hq) (sameOutside_loadBlock s x _) ?_
    rintro p ⟨k, hk, rfl⟩
    exact ⟨.inl ⟨k, hk, rfl⟩, by simp [isLatch]⟩
  | drwVxVyN x y n =>
    refine writesQuietly_of_frame (exec_drwVxVyN_of_quiet hq) (sameOutside_drawing s x y n _) ?_
    rintro p (rfl | ⟨r, k, hr, hk, rfl⟩)
    · exact ⟨.inr (.inl rfl), by simp [isLatch]⟩
    · exact ⟨.inl ⟨r, k, hr, hk, rfl⟩, by simp [isLatch]⟩

end Sys2Proof.Machine
end

section
/-! PROOFS. The frames and the errors of every instruction and of every STEP (10_state.md R37, 40_step_cycle.md R93 to
R97, 60_exceptions.md R170 to R180), derived from what an instruction can do. -/

namespace Sys2Proof.Machine

/-! ## Every instruction -/

theorem exists_exec_eq_next (i : Instr) (s : State) : ∃ t, exec i s = .next t := by
  rcases raises_or_quiet i s with ⟨_, hr⟩ | hq
  · exact ⟨_, exec_of_raises hr⟩
  · exact (exec_writes_of_quiet hq).imp fun _ h => h.1

/-- The two cases of an instruction that answers `t`. -/
theorem exec_cases {i : Instr} {s t : State} (h : exec i s = .next t) :
    (∃ kind, Raises s i kind ∧ t = { s with fault := some kind, faultWord := 0 }) ∨
    SameOutside (writesQuietly i s) s t := by
  rcases raises_or_quiet i s with ⟨kind, hr⟩ | hq
  · exact .inl ⟨kind, hr, Host.Outcome.next.inj (h.symm.trans (exec_of_raises hr))⟩
  · obtain ⟨u, hu, hframe⟩ := exec_writes_of_quiet hq
    cases Host.Outcome.next.inj (h.symm.trans hu)
    exact .inr hframe

theorem sameOutside_latch (s : State) (kind : Option ErrorKind) (w : Word) :
    SameOutside isLatch s { s with fault := kind, faultWord := w } := by
  intro p hp
  cases p with
  | fault => exact absurd (.inl rfl) hp
  | faultWord => exact absurd (.inr rfl) hp
  | _ => rfl

/-- Settles O23: an instruction's own error changes the latch, which is in its row, and otherwise it writes its row. -/
theorem instructionWritesOnlyItsRow : Obligations.InstructionWritesOnlyItsRow := by
  intro i s t h
  rcases exec_cases h with ⟨kind, hr, rfl⟩ | hframe
  · exact (sameOutside_latch s _ _).mono fun _ => hr.writes_latch
  · exact hframe.mono fun _ hp => hp.1

theorem ldDtVx_of_writes {i : Instr} {s : State} (h : writes i s .dt) : ∃ x, i = .ldDtVx x := by
  cases i <;> simp [writes, isLatch] at h ⊢

theorem ldStVx_of_writes {i : Instr} {s : State} (h : writes i s .st) : ∃ x, i = .ldStVx x := by
  cases i <;> simp [writes, isLatch] at h ⊢

theorem not_writes_params (i : Instr) (s : State) : ¬ writes i s .params := by
  cases i <;> simp [writes, isLatch]

theorem not_writes_key (i : Instr) (s : State) (k : Nibble) : ¬ writes i s (.key k) := by
  cases i <;> simp [writes, isLatch]

/-! ## Every STEP -/

theorem sameOutside_keyWaitStep (s : State) :
    SameOutside (fun p => p = .v s.waitX ∨ p = .pc ∨ p = .waiting ∨ p = .keyEvent) s s.keyWaitStep := by
  cases hk : s.keyEvent with
  | none =>
    rw [State.keyWaitStep_none hk]
    exact SameOutside.refl _ s
  | some k =>
    rw [State.keyWaitStep_some hk]
    refine ((sameOutside_setV s s.waitX (k.setWidth 8)).mono fun _ => .inl).trans fun p hp => ?_
    cases p with
    | pc | waiting | keyEvent => exact absurd (by simp) hp
    | _ => rfl

/-- What a STEP that runs no instruction can touch: a register and the wait's cells when a key wait completes, `pc` and
the latch when the fetched word is none or no instruction. -/
def housekeeping (p : Part) : Prop :=
  (∃ x, p = .v x) ∨ p = .pc ∨ p = .waiting ∨ p = .keyEvent ∨ isLatch p

/-- A STEP runs the instruction it decoded, on the post-fetch state, or it does no more than housekeeping. -/
theorem step_runs_or_housekeeps {s t : State} (h : step s = .next t) :
    (∃ i, decodeWord s.wordAtPc = .ok i ∧ exec i s.advancePc = .next t) ∨ SameOutside housekeeping s t := by
  obtain ⟨-, ⟨-, rfl⟩ | ⟨-, -, rfl⟩ | ⟨-, -, -, rfl⟩ | ⟨-, -, i, hi, ht⟩⟩ := step_cases h
  · refine .inr ((sameOutside_keyWaitStep s).mono ?_)
    rintro p (rfl | rfl | rfl | rfl) <;> simp [housekeeping]
  · exact .inr ((sameOutside_latch s _ _).mono fun p hp => by simp [housekeeping, hp])
  · refine .inr (SameOutside.trans (t := s.advancePc) ((sameOutside_setPc s _).mono ?_)
      ((sameOutside_raiseError _ _ _).mono ?_))
    · rintro p rfl; simp [housekeeping]
    · intro p hp; simp [housekeeping, hp]
  · exact .inl ⟨i, hi, ht⟩

/-- What no instruction writes, no STEP writes. -/
theorem sameAt_of_step {s t : State} {p : Part} (h : step s = .next t) (hh : ¬ housekeeping p)
    (hw : ∀ i, decodeWord s.wordAtPc = .ok i → ¬ writes i s.advancePc p) : sameAt s t p := by
  rcases step_runs_or_housekeeps h with ⟨i, hi, ht⟩ | hframe
  · have hpc : p ≠ .pc := fun e => hh (by simp [housekeeping, e])
    have hfetch : sameAt s s.advancePc p := sameOutside_setPc s _ p hpc
    have hexec := instructionWritesOnlyItsRow i _ _ ht p (hw i hi)
    cases p <;> exact Eq.trans hexec hfetch
  · exact hframe p hh

theorem step_params {s t : State} (h : step s = .next t) : t.params = s.params :=
  sameAt_of_step (p := .params) h (by simp [housekeeping, isLatch]) fun i _ => not_writes_params i _

theorem step_keyPressed {s t : State} (h : step s = .next t) (k : Nibble) : t.keyPressed k = s.keyPressed k :=
  sameAt_of_step (p := .key k) h (by simp [housekeeping, isLatch]) fun i _ => not_writes_key i _ k

theorem State.key_ext {s t : State} (h : ∀ k, t.keyPressed k = s.keyPressed k) : t.key = s.key := by
  apply Vector.ext
  intro k hk
  have := h (BitVec.ofNat 4 k)
  simpa [State.keyPressed, Nat.mod_eq_of_lt hk] using this

/-- A STEP that changes a piece of state beyond housekeeping has run an instruction with that piece in its row. -/
theorem exec_of_step_of_not_sameAt {s t : State} {p : Part} (h : step s = .next t) (hh : ¬ housekeeping p)
    (hp : ¬ sameAt s t p) :
    ∃ i, decodeWord s.wordAtPc = .ok i ∧ exec i s.advancePc = .next t ∧ writes i s.advancePc p := by
  rcases step_runs_or_housekeeps h with ⟨i, hi, ht⟩ | hframe
  · refine ⟨i, hi, ht, Classical.byContradiction fun hw => hp (sameAt_of_step h hh fun j hj => ?_)⟩
    cases hi.symm.trans hj
    exact hw
  · exact absurd (hframe p hh) hp

/-- Settles O24: no STEP that only keeps house touches a key, a timer or the parameters, no instruction has a key or the
parameters in its row, and each timer is in one load's row only. -/
theorem stepWritesNoKeyAndTimersOnlyByLoads : Obligations.StepWritesNoKeyAndTimersOnlyByLoads := by
  intro s t h
  refine ⟨State.key_ext (step_keyPressed h), step_params h, fun hdt => ?_, fun hst => ?_⟩
  · obtain ⟨i, hi, ht, hw⟩ := exec_of_step_of_not_sameAt (p := .dt) h (by simp [housekeeping, isLatch]) hdt
    obtain ⟨x, rfl⟩ := ldDtVx_of_writes hw
    cases ht
    exact ⟨x, hi, rfl⟩
  · obtain ⟨i, hi, ht, hw⟩ := exec_of_step_of_not_sameAt (p := .st) h (by simp [housekeeping, isLatch]) hst
    obtain ⟨x, rfl⟩ := ldStVx_of_writes hw
    cases ht
    exact ⟨x, hi, rfl⟩

/-! ## Errors -/

theorem raiseError_of_halt {s : State} (w : Word) (hp : s.params.unimplPolicy = .halt) :
    raiseError .unimplementedOpcode w s.advancePc =
      { s with pc := s.pc + 2, fault := some .unimplementedOpcode, faultWord := w } :=
  if_pos ((latches_unimplementedOpcode_iff _).mpr hp)

theorem raiseError_of_not_halt {s : State} (w : Word) (hp : s.params.unimplPolicy ≠ .halt) :
    raiseError .unimplementedOpcode w s.advancePc = s.advancePc :=
  if_neg (mt (latches_unimplementedOpcode_iff _).mp hp)

/-- The causes of a STEP's error that latches, with the word latched. -/
inductive StepRaises (s : State) : ErrorKind → Word → Prop
  | fetch (hpc : s.pc.toNat > 4094) : StepRaises s .memoryOutOfBounds 0
  | decode (hpc : s.pc.toNat ≤ 4094) (hd : decodeWord s.wordAtPc = .error (.unimplementedOpcode s.wordAtPc))
    (hp : s.params.unimplPolicy = .halt) : StepRaises s .unimplementedOpcode s.wordAtPc
  | instr {i : Instr} {kind : ErrorKind} (hpc : s.pc.toNat ≤ 4094) (hd : decodeWord s.wordAtPc = .ok i)
    (hr : Raises s.advancePc i kind) : StepRaises s kind 0

/-- The two cases of a STEP that answers `t`: it latches an error, precisely, or it leaves the latch. -/
theorem step_raises_or_keeps_latch {s t : State} (h : step s = .next t) :
    (∃ kind w, s.waiting = false ∧ StepRaises s kind w ∧
      t = { s with fault := some kind, faultWord := w, pc := if s.pc.toNat ≤ 4094 then s.pc + 2 else s.pc }) ∨
    (t.fault = none ∧ t.faultWord = s.faultWord) := by
  obtain ⟨hf, ⟨-, rfl⟩ | ⟨hw, hpc, rfl⟩ | ⟨hw, hpc, hd, rfl⟩ | ⟨hw, hpc, i, hd, ht⟩⟩ := step_cases h
  · have hframe := sameOutside_keyWaitStep s
    exact .inr ⟨(hframe .fault (by simp)).trans hf, hframe .faultWord (by simp)⟩
  · refine .inl ⟨_, _, hw, .fetch hpc, ?_⟩
    rw [if_neg (by omega)]
  · by_cases hp : s.params.unimplPolicy = .halt
    · refine .inl ⟨_, _, hw, .decode hpc hd hp, ?_⟩
      rw [if_pos hpc, raiseError_of_halt _ hp]
    · rw [raiseError_of_not_halt _ hp]
      exact .inr ⟨hf, rfl⟩
  · rcases exec_cases ht with ⟨kind, hr, rfl⟩ | hframe
    · refine .inl ⟨kind, 0, hw, .instr hpc hd hr, ?_⟩
      rw [if_pos hpc]
      rfl
    · exact .inr ⟨(hframe .fault fun h => h.2 (.inl rfl)).trans hf, hframe .faultWord fun h => h.2 (.inr rfl)⟩

/-- A STEP that latches an error has one of its causes and is precise. -/
theorem stepRaises_of_fault {s t : State} {kind : ErrorKind} (h : step s = .next t) (hk : t.fault = some kind) :
    s.waiting = false ∧ StepRaises s kind t.faultWord ∧
    t = { s with fault := some kind, faultWord := t.faultWord, pc := if s.pc.toNat ≤ 4094 then s.pc + 2 else s.pc } := by
  rcases step_raises_or_keeps_latch h with ⟨kind', w, hw, hr, rfl⟩ | ⟨hn, -⟩
  · cases hk
    exact ⟨hw, hr, rfl⟩
  · rw [hn] at hk
    cases hk

/-- Settles O22: the latch and `pc` are all that a STEP that latches an error changes. -/
theorem errorsArePrecise : Obligations.ErrorsArePrecise := fun _ _ _ _ h hk => (stepRaises_of_fault h hk).2.2

theorem wordWellFormed_eq_false_of_decodeWord {w : Word} {e : DecodeError} (h : decodeWord w = .error e) :
    wordWellFormed w = false := by
  rw [Bool.eq_false_iff]
  intro hw
  obtain ⟨i, hi, -⟩ := (decoderFollowsOpcodeTable w).1 hw
  rw [hi] at h
  cases h

/-- Settles O21: the causes are those of `StepRaises`, with `Raises` for the instructions' own. -/
theorem errorsComeFromTheirCauses : Obligations.ErrorsComeFromTheirCauses := by
  intro s t kind _ h hk
  obtain ⟨hw, hr, -⟩ := stepRaises_of_fault h hk
  refine ⟨hw, ?_⟩
  generalize t.faultWord = w at hr ⊢
  cases hr with
  | fetch hpc => exact .inl hpc
  | decode hpc hd hp => exact ⟨hpc, wordWellFormed_eq_false_of_decodeWord hd, hp, rfl⟩
  | instr hpc hd hr =>
    cases hr with
    | ret h => exact ⟨hpc, hd, h⟩
    | callAddr nnn h => exact ⟨hpc, ⟨nnn, hd⟩, h⟩
    | skpVx x hp hx => exact ⟨hpc, hp, x, .inl hd, hx⟩
    | sknpVx x hp hx => exact ⟨hpc, hp, x, .inr hd, hx⟩
    | ldBVx x h => exact .inr ⟨_, hd, .inl ⟨x, rfl, h⟩⟩
    | ldMemVx x h => exact .inr ⟨_, hd, .inr (.inl ⟨x, rfl, h⟩)⟩
    | ldVxMem x h => exact .inr ⟨_, hd, .inr (.inr (.inl ⟨x, rfl, h⟩))⟩
    | drwVxVyN x y n hn h => exact .inr ⟨_, hd, .inr (.inr (.inr ⟨x, y, n, rfl, hn, h⟩))⟩

theorem step_of_pc_gt {s : State} (hf : s.fault = none) (hw : s.waiting = false) (hpc : s.pc.toNat > 4094) :
    step s = .next { s with fault := some .memoryOutOfBounds, faultWord := 0 } := by
  simp [step, cycle, hf, hw, fetchAndRun, fetch_of_gt hpc, raise_memoryOutOfBounds]

/-- A running machine's STEP answers a next state. -/
theorem exists_step_eq_next {s : State} (hf : s.fault = none) : ∃ t, step s = .next t := by
  rcases Bool.eq_false_or_eq_true s.waiting with hw | hw
  · exact ⟨_, step_waiting hf hw⟩
  · rcases Nat.lt_or_ge 4094 s.pc.toNat with hpc | hpc
    · exact ⟨_, step_of_pc_gt hf hw hpc⟩
    · rw [step_fetches hf hw hpc, runWord]
      cases decodeWord s.wordAtPc with
      | ok i => exact exists_exec_eq_next i _
      | error e => exact ⟨_, rfl⟩

theorem stepResult_of_next {s t : State} (h : step s = .next t) : (stepResult s).isSome = true := by
  rw [stepResult, h]
  cases hf : t.fault with
  | some kind => simp [hf]
  | none => cases hu : unimplementedWord s <;> simp [hf]

/-- Settles O12: each phase of the STEP answers, and each instruction does. -/
theorem runningMachineAlwaysSteps : Obligations.RunningMachineAlwaysSteps := by
  intro s hf
  obtain ⟨t, ht⟩ := exists_step_eq_next hf
  exact ⟨⟨t, ht⟩, stepResult_of_next ht⟩

end Sys2Proof.Machine
end

section
/-! PROOFS. What every STEP keeps: the canonical memory (log 25), the bound of the program counter (10_state.md R25),
a legal error latch and a confined key event (60_exceptions.md R174 to R176, R190). -/

namespace Sys2Proof.Machine

/-! ## The canonical memory -/

@[simp] theorem State.setFlagAndResult_mem (s : State) (x : Nibble) (flag result : Byte) :
    (s.setFlagAndResult x flag result).mem = s.mem := by rw [State.setFlagAndResult_eq]

/-- An instruction leaves the memory list alone, or it stores bytes at `I` up, inside Memory. -/
theorem exec_mem {i : Instr} {s t : State} (h : exec i s = .next t) :
    t.mem = s.mem ∨ ∃ bs, s.i.toNat + bs.length ≤ memSize ∧ t = s.writeBytes s.i.toNat bs := by
  rcases raises_or_quiet i s with ⟨kind, hr⟩ | hq
  · cases h.symm.trans (exec_of_raises hr)
    exact .inl rfl
  · cases i with
    | ldBVx x =>
      obtain ⟨hle, ht⟩ := exec_ldBVx_of_quiet hq
      cases h.symm.trans ht
      exact .inr ⟨bcdDigits (s.getV x), Nat.add_le_add_right hle 1, rfl⟩
    | ldMemVx x =>
      obtain ⟨hle, ht⟩ := exec_ldMemVx_of_quiet hq
      cases h.symm.trans ht
      refine .inr ⟨_, ?_, rfl⟩
      rw [State.length_blockRegs]
      exact Nat.add_le_add_right hle 1
    | ret =>
      obtain ⟨_, ht⟩ := exec_ret_of_quiet hq
      cases h.symm.trans ht
      exact .inl rfl
    | callAddr =>
      obtain ⟨_, _, ht⟩ := exec_callAddr_of_quiet hq
      cases h.symm.trans ht
      exact .inl rfl
    | skpVx x =>
      obtain ⟨_, -, ht⟩ := exec_skpVx_of_quiet hq
      cases h.symm.trans ht
      exact .inl (State.skipIf_mem s _)
    | sknpVx x =>
      obtain ⟨_, -, ht⟩ := exec_sknpVx_of_quiet hq
      cases h.symm.trans ht
      exact .inl (State.skipIf_mem s _)
    | ldVxMem =>
      cases h.symm.trans (exec_ldVxMem_of_quiet hq)
      exact .inl rfl
    | drwVxVyN =>
      cases h.symm.trans (exec_drwVxVyN_of_quiet hq)
      exact .inl rfl
    | seVxNn | sneVxNn | seVxVy | sneVxVy =>
      cases h
      exact .inl (State.skipIf_mem s _)
    | addVxVy | subVxVy | subnVxVy | shrVx | shlVx =>
      cases h
      exact .inl (State.setFlagAndResult_mem s _ _ _)
    | _ =>
      cases h
      exact .inl rfl

theorem exec_keeps_memInv {i : Instr} {s t : State} (hinv : s.MemInv) (h : exec i s = .next t) : t.MemInv := by
  have hparams : t.params = s.params := instructionWritesOnlyItsRow i s t h .params (not_writes_params i s)
  rcases exec_mem h with hmem | ⟨bs, hle, rfl⟩
  · rw [State.MemInv, hmem, hparams]
    exact hinv
  · exact State.wf_writeBytes hinv bs (.inr hle)

theorem keyWaitStep_mem (s : State) : s.keyWaitStep.mem = s.mem := by
  cases hk : s.keyEvent with
  | none => rw [State.keyWaitStep_none hk]
  | some k => rw [State.keyWaitStep_some hk]; rfl

theorem raiseError_mem (kind : ErrorKind) (w : Word) (s : State) : (raiseError kind w s).mem = s.mem := by
  rw [raiseError]
  split <;> rfl

/-- Settles O14: no phase before the instruction touches the memory, and an instruction's stores are inside Memory. -/
theorem stepKeepsMemoryCanonical : Obligations.StepKeepsMemoryCanonical := by
  intro s t hinv h
  have keep (hmem : t.mem = s.mem) : t.MemInv := by
    rw [State.MemInv, hmem, step_params h]
    exact hinv
  obtain ⟨-, ⟨-, rfl⟩ | ⟨-, -, rfl⟩ | ⟨-, -, -, rfl⟩ | ⟨-, -, i, -, ht⟩⟩ := step_cases h
  · exact keep (keyWaitStep_mem s)
  · exact keep rfl
  · exact keep (raiseError_mem _ _ _)
  · exact exec_keeps_memInv (s := s.advancePc) hinv ht

section
variable {font : Vector Byte 80} {lo a : Nat} {b : Byte} {m m₁ m₂ : Memory}

theorem Memory.wfFrom_cons_iff : Memory.wfFrom font lo ((a, b) :: m) = true ↔
    lo ≤ a ∧ a < memSize ∧ b ≠ Memory.resetByte font a ∧ Memory.wfFrom font (a + 1) m = true := by
  simp only [Memory.wfFrom, Bool.and_eq_true, decide_eq_true_eq, and_assoc]

@[simp] theorem Memory.read_cons_self : Memory.read font ((a, b) :: m) a = b := if_pos rfl

/-- Only listed addresses read as other than their reset content. -/
theorem Memory.le_of_read_ne (h : Memory.wfFrom font lo m = true)
    (hne : Memory.read font m a ≠ Memory.resetByte font a) : lo ≤ a :=
  Nat.le_of_not_lt fun hlt => hne (Memory.read_of_lt h hlt)

/-- The first address of a canonical list is the lowest that reads as other than its reset content. -/
theorem Memory.head_le_of_read_ne {c : Nat} (h : Memory.wfFrom font lo ((a, b) :: m) = true)
    (hne : Memory.read font ((a, b) :: m) c ≠ Memory.resetByte font c) : a ≤ c := by
  obtain ⟨-, ha, hb, hm⟩ := Memory.wfFrom_cons_iff.mp h
  exact Memory.le_of_read_ne (Memory.wfFrom_cons_iff.mpr ⟨Nat.le_refl a, ha, hb, hm⟩) hne

theorem Memory.read_tail_eq (h : Memory.wfFrom font (a + 1) m = true) (c : Nat) :
    Memory.read font m c = if c ≤ a then Memory.resetByte font c else Memory.read font ((a, b) :: m) c := by
  split
  · exact Memory.read_of_lt h (by omega)
  · rw [Memory.read, if_neg (by omega)]

/-- Two canonical lists that read alike are equal: each one's first address is the lowest that does not read as its
reset content, and their tails read alike. -/
theorem Memory.eq_of_read_eq (h₁ : Memory.wfFrom font lo m₁ = true) (h₂ : Memory.wfFrom font lo m₂ = true)
    (hread : ∀ a, Memory.read font m₁ a = Memory.read font m₂ a) : m₁ = m₂ := by
  induction m₁ generalizing m₂ lo with
  | nil =>
    cases m₂ with
    | nil => rfl
    | cons c m₂ =>
      obtain ⟨-, -, hb, -⟩ := Memory.wfFrom_cons_iff.mp h₂
      exact absurd (Memory.read_cons_self.symm.trans (hread c.1).symm) hb
  | cons c₁ m₁ ih =>
    obtain ⟨a₁, b₁⟩ := c₁
    obtain ⟨-, -, hb₁, hm₁⟩ := Memory.wfFrom_cons_iff.mp h₁
    cases m₂ with
    | nil => exact absurd (Memory.read_cons_self.symm.trans (hread a₁)) hb₁
    | cons c₂ m₂ =>
      obtain ⟨a₂, b₂⟩ := c₂
      obtain ⟨-, -, hb₂, hm₂⟩ := Memory.wfFrom_cons_iff.mp h₂
      have h21 : a₂ ≤ a₁ := Memory.head_le_of_read_ne h₂ (by rwa [← hread, Memory.read_cons_self])
      have h12 : a₁ ≤ a₂ := Memory.head_le_of_read_ne h₁ (by rwa [hread, Memory.read_cons_self])
      obtain rfl : a₁ = a₂ := Nat.le_antisymm h12 h21
      obtain rfl : b₁ = b₂ := by simpa using hread a₁
      have htail : m₁ = m₂ := ih hm₁ hm₂ fun c => by
        rw [Memory.read_tail_eq (b := b₁) hm₁, Memory.read_tail_eq (b := b₁) hm₂, hread]
      rw [htail]

end

/-- Settles O18: the canonical form is `Memory.wfFrom` from address 0. -/
theorem canonicalMemoriesWithEqualReadsAreEqual : Obligations.CanonicalMemoriesWithEqualReadsAreEqual :=
  fun _ _ _ => Memory.eq_of_read_eq

/-! ## The bound of the program counter -/

/-- Where an instruction leaves `pc`: the post-fetch value, one instruction further, an address immediate, the sum of JP
V0+addr, a return address, or back at the instruction to wait for a key. -/
theorem exec_pc {i : Instr} {s t : State} (h : exec i s = .next t) :
    t.pc = s.pc ∨ t.pc = s.pc + 2 ∨ (∃ nnn, t.pc = addrImm nnn) ∨ (∃ b nnn, t.pc = wordOfByte b + addrImm nnn) ∨
    (∃ k : Fin 16, t.pc = s.stack[k]) ∨ t.pc = s.pc - 2 := by
  have skip {c : Bool} : (s.skipIf c).pc = s.pc ∨ (s.skipIf c).pc = s.pc + 2 := by
    cases c
    · exact .inl rfl
    · exact .inr rfl
  rcases raises_or_quiet i s with ⟨kind, hr⟩ | hq
  · cases h.symm.trans (exec_of_raises hr)
    exact .inl rfl
  · cases i with
    | jpAddr nnn => cases h; exact .inr (.inr (.inl ⟨nnn, rfl⟩))
    | jpV0Addr nnn => cases h; exact .inr (.inr (.inr (.inl ⟨_, nnn, rfl⟩)))
    | seVxNn | sneVxNn | seVxVy | sneVxVy => cases h; exact skip.imp_right .inl
    | ldVxK => cases h; exact .inr (.inr (.inr (.inr (.inr rfl))))
    | skpVx =>
      obtain ⟨_, -, ht⟩ := exec_skpVx_of_quiet hq
      cases h.symm.trans ht
      exact skip.imp_right .inl
    | sknpVx =>
      obtain ⟨_, -, ht⟩ := exec_sknpVx_of_quiet hq
      cases h.symm.trans ht
      exact skip.imp_right .inl
    | callAddr nnn =>
      obtain ⟨_, _, ht⟩ := exec_callAddr_of_quiet hq
      cases h.symm.trans ht
      exact .inr (.inr (.inl ⟨nnn, rfl⟩))
    | ret =>
      obtain ⟨_, ht⟩ := exec_ret_of_quiet hq
      cases h.symm.trans ht
      exact .inr (.inr (.inr (.inr (.inl ⟨⟨s.sp.val - 1, by omega⟩, rfl⟩))))
    | _ => exact .inl (instructionWritesOnlyItsRow _ s t h .pc (by simp [writes, isLatch]))

/-- A stack slot keeps its value or takes the post-fetch `pc`. -/
theorem exec_stackSlot {i : Instr} {s t : State} (h : exec i s = .next t) (k : Fin 16) :
    t.stack[k] = s.stack[k] ∨ t.stack[k] = s.pc := by
  rcases raises_or_quiet i s with ⟨kind, hr⟩ | hq
  · cases h.symm.trans (exec_of_raises hr)
    exact .inl rfl
  · cases i with
    | callAddr nnn =>
      obtain ⟨_, _, ht⟩ := exec_callAddr_of_quiet hq
      cases h.symm.trans ht
      simp only [Fin.getElem_fin, Vector.getElem_set]
      exact (ite_eq_or_eq _ _ _).symm
    | _ => exact .inl (instructionWritesOnlyItsRow _ s t h (.stackSlot k) (by simp [writes, isLatch]))

/-- An instruction leaves the key wait as it is, or it begins one, at its own address. -/
theorem exec_waiting {i : Instr} {s t : State} (h : exec i s = .next t) :
    t.waiting = s.waiting ∧ t.keyEvent = s.keyEvent ∨ t.waiting = true ∧ t.pc = s.pc - 2 := by
  cases i with
  | ldVxK x =>
    cases h
    exact .inr ⟨rfl, rfl⟩
  | _ =>
    have hframe := instructionWritesOnlyItsRow _ s t h
    exact .inl ⟨hframe .waiting (by simp [writes, isLatch]), hframe .keyEvent (by simp [writes, isLatch])⟩

/-- After a fetch at most at 4094, every place an instruction can leave `pc` at is at most 0x10FE. -/
theorem exec_keeps_pcInv {i : Instr} {s t : State} (hpc : s.pc.toNat ≤ pcFetchMax)
    (hstack : ∀ k : Fin 16, s.stack[k].toNat ≤ 4096) (hw : s.waiting = false) (h : exec i s.advancePc = .next t) :
    t.PcInv := by
  have hfetched : s.advancePc.pc.toNat = s.pc.toNat + 2 := State.toNat_advancePc (Nat.le_trans hpc (by decide))
  rw [pcFetchMax] at hpc
  have hback : s.advancePc.pc - 2 = s.pc := by simp
  refine ⟨?_, fun k => ?_, fun htw => ?_⟩
  · rcases exec_pc h with e | e | ⟨nnn, e⟩ | ⟨b, nnn, e⟩ | ⟨k, e⟩ | e <;> rw [e]
    · omega
    · rw [BitVec.toNat_add, hfetched, show (2 : Word).toNat = 2 from rfl]; omega
    · rw [toNat_addrImm]; omega
    · rw [BitVec.toNat_add, toNat_wordOfByte, toNat_addrImm]; omega
    · exact Nat.le_trans (hstack k) (by decide)
    · rw [hback]; omega
  · rcases exec_stackSlot h k with e | e <;> rw [e]
    · exact hstack k
    · omega
  · rcases exec_waiting h with ⟨e, -⟩ | ⟨-, e⟩
    · rw [e, State.advancePc_waiting, hw] at htw
      cases htw
    · rw [e, hback]
      exact hpc

theorem pcInv_keyWaitStep {s : State} (hinv : s.PcInv) (hw : s.waiting = true) : s.keyWaitStep.PcInv := by
  obtain ⟨hpc, hstack, hwait⟩ := hinv
  cases hk : s.keyEvent with
  | none =>
    rw [State.keyWaitStep_none hk]
    exact ⟨hpc, hstack, hwait⟩
  | some k =>
    rw [State.keyWaitStep_some hk]
    have hle := hwait hw
    rw [pcFetchMax] at hle
    have hpc' : s.advancePc.pc.toNat = s.pc.toNat + 2 := State.toNat_advancePc hpc
    exact ⟨show s.advancePc.pc.toNat ≤ _ by omega, hstack, fun h => by cases h⟩

theorem pcInv_raiseError {s : State} {kind : ErrorKind} {w : Word} (hinv : s.PcInv) : (raiseError kind w s).PcInv := by
  rw [raiseError]
  split <;> exact hinv

/-- Settles O15: the phases of the STEP, with `exec_pc` for the instruction. -/
theorem stepKeepsPcBounded : Obligations.StepKeepsPcBounded := by
  intro s t hinv h
  have ⟨hpc, hstack, hwait⟩ := hinv
  obtain ⟨-, ⟨hw, rfl⟩ | ⟨hw, hgt, rfl⟩ | ⟨hw, hle, hd, rfl⟩ | ⟨hw, hle, i, -, ht⟩⟩ := step_cases h
  · exact pcInv_keyWaitStep hinv hw
  · exact hinv
  · exact pcInv_raiseError (exec_keeps_pcInv hle hstack hw (exec_nop s.advancePc))
  · exact exec_keeps_pcInv hle hstack hw ht

/-! ## The error latch and the key event -/

/-- InvalidKeyIndex is raised under the policy `fault` only. -/
theorem Raises.ne_invalidKeyIndex {s : State} {i : Instr} {kind : ErrorKind} (h : Raises s i kind)
    (hp : s.params.keyIndexPolicy = .mask4) : kind ≠ .invalidKeyIndex := by
  rintro rfl
  cases h with
  | skpVx x hp' | sknpVx x hp' => rw [hp] at hp'; cases hp'

/-- What a STEP latches is legal. -/
theorem StepRaises.latchInv {s t : State} {kind : ErrorKind} {w : Word} (h : StepRaises s kind w)
    (hfault : t.fault = some kind) (hword : t.faultWord = w) (hparams : t.params = s.params) : t.LatchInv := by
  rw [State.LatchInv, hfault, hword, hparams]
  simp only [ne_eq, Option.some.injEq]
  cases h with
  | fetch => simp
  | decode hpc hd hp => simp [hp]
  | instr hpc hd hr =>
    exact ⟨hr.ne_romTooLarge, fun _ => hr.ne_unimplementedOpcode, fun hp => hr.ne_invalidKeyIndex hp, fun _ => rfl⟩

theorem step_keeps_latchInv {s t : State} (hinv : s.LatchInv) (h : step s = .next t) : t.LatchInv := by
  rcases step_raises_or_keeps_latch h with ⟨kind, w, -, hr, ht⟩ | ⟨hfault, hword⟩
  · exact hr.latchInv (by rw [ht]) (by rw [ht]) (step_params h)
  · have hf : s.fault = none := (step_cases h).1
    obtain ⟨-, -, -, hw⟩ := hinv
    rw [hf] at hw
    simp [State.LatchInv, hfault, hword, hw]

theorem step_keeps_keyEventInv {s t : State} (hinv : s.KeyEventInv) (h : step s = .next t) : t.KeyEventInv := by
  intro htw
  obtain ⟨-, ⟨hw, rfl⟩ | ⟨hw, -, rfl⟩ | ⟨hw, -, -, rfl⟩ | ⟨hw, -, i, -, ht⟩⟩ := step_cases h
  · cases hk : s.keyEvent with
    | none =>
      rw [State.keyWaitStep_none hk]
      exact hk
    | some k => rw [State.keyWaitStep_some hk]
  · exact hinv hw
  · exact (sameOutside_raiseError _ _ s.advancePc .keyEvent (by simp [isLatch])).trans (hinv hw)
  · rcases exec_waiting ht with ⟨-, e⟩ | ⟨e, -⟩
    · exact e.trans (hinv hw)
    · rw [e] at htw
      cases htw

/-- Settles O16: a latched error is one of `StepRaises`, and only LD Vx,K and the wait's own STEP write the wait's
cells. -/
theorem stepKeepsLatchAndKeyEventLegal : Obligations.StepKeepsLatchAndKeyEventLegal :=
  fun _ _ hlatch hkey h => ⟨step_keeps_latchInv hlatch h, step_keeps_keyEventInv hkey h⟩

end Sys2Proof.Machine
end

section
/-! PROOFS. The invariant and the frame of each operation of the host (60_exceptions.md R196, 70_reset_and_hazards.md
R200, R203). -/

namespace Sys2Proof.Machine

/-! ## The invariant -/

theorem inv_hostReset (s : State) : (hostReset s).Inv := by
  refine ⟨rfl, ⟨(by decide : (0x0200 : Word).toNat ≤ 0x10FE), fun k => ?_, fun h => by cases h⟩, ?_, fun _ => rfl⟩
  · simp [hostReset, State.resetWith]
  · simp [State.LatchInv, hostReset, State.resetWith]

theorem inv_stateAfterStep {s : State} (hinv : s.Inv) : (stateAfterStep s).Inv := by
  obtain ⟨hmem, hpc, hlatch, hkey⟩ := hinv
  rw [stateAfterStep]
  cases h : step s with
  | next t =>
    exact ⟨stepKeepsMemoryCanonical s t hmem h, stepKeepsPcBounded s t hpc h, step_keeps_latchInv hlatch h,
      step_keeps_keyEventInv hkey h⟩
  | fault | refused => exact ⟨hmem, hpc, hlatch, hkey⟩

theorem loadRom_of_le {bytes : List Byte} (s : State) (h : bytes.length ≤ 3584) :
    loadRom bytes s = (none, s.writeBytes 0x200 bytes) := if_neg (Nat.not_lt.mpr h)

theorem loadRom_of_gt {bytes : List Byte} (s : State) (h : bytes.length > 3584) :
    loadRom bytes s = (some .romTooLarge, s) := if_pos h

theorem inv_writeBytes {s : State} (hinv : s.Inv) {a : Nat} {bs : List Byte} (h : a + bs.length ≤ memSize) :
    (s.writeBytes a bs).Inv := by
  obtain ⟨hmem, hrest⟩ := hinv
  refine ⟨State.wf_writeBytes hmem bs (.inr h), ?_⟩
  rw [State.writeBytes_eq]
  exact hrest

theorem inv_loadRom {s : State} (hinv : s.Inv) (bytes : List Byte) : (loadRom bytes s).2.Inv := by
  rcases Nat.lt_or_ge 3584 bytes.length with h | h
  · rw [loadRom_of_gt s h]
    exact hinv
  · rw [loadRom_of_le s h]
    exact inv_writeBytes hinv (by rw [memSize]; omega)

theorem recordPress_of_not_waiting {s : State} {k : Nibble} {pressed : Bool} (h : s.waiting = false) :
    recordPress s k pressed = s.keyEvent := by simp [recordPress, h]

theorem inv_setKey {s : State} (hinv : s.Inv) (k : Nibble) (pressed : Bool) : (setKey k pressed s).Inv := by
  obtain ⟨hmem, hpc, hlatch, hkey⟩ := hinv
  have hkey' (hw : s.waiting = false) : recordPress s k pressed = none :=
    (recordPress_of_not_waiting hw).trans (hkey hw)
  exact ⟨hmem, hpc, hlatch, hkey'⟩

/-- Settles O17: STEP by O14 to O16; LOAD_ROM stores inside Memory; SET_KEY records no press outside a key wait; the
others touch nothing the invariant speaks of or reset it. -/
theorem hostOperationsKeepInvariant : Obligations.HostOperationsKeepInvariant := by
  intro op s hinv
  cases op with
  | reset => exact inv_hostReset s
  | loadRom bytes => exact inv_loadRom hinv bytes
  | step => exact inv_stateAfterStep hinv
  | tick | displayRead => exact hinv
  | setKey k pressed => exact inv_setKey hinv k pressed

/-- Settles O20: State.reset is RESET of itself, and RESET reads only the parameters and the draw counter. -/
theorem resetMeetsInvariant : Obligations.ResetMeetsInvariant := by
  refine ⟨inv_hostReset State.reset, fun s hp hd => ?_⟩
  rw [hostReset, hp, hd, State.reset]

/-! ## The frames -/

theorem sameOutside_tick (s : State) : SameOutside (fun p => p = .dt ∨ p = .st) s (tick s).2 := by
  intro p hp
  cases p with
  | dt | st => exact absurd (by simp) hp
  | _ => rfl

theorem sameOutside_setKey (s : State) (k : Nibble) (pressed : Bool) :
    SameOutside (fun p => p = .key k ∨ p = .keyEvent) s (setKey k pressed s) := by
  intro p hp
  cases p with
  | key k' =>
    have hne : k' ≠ k := fun e => hp (.inl (congrArg _ e))
    exact (State.keyPressed_setKey s k k' pressed).trans (if_neg hne)
  | keyEvent => exact absurd (by simp) hp
  | _ => rfl

theorem sameOutside_loadRom (s : State) (bytes : List Byte) :
    SameOutside (fun p => ∃ k, k < bytes.length ∧ p = .memByte (0x200 + k)) s (loadRom bytes s).2 := by
  rcases Nat.lt_or_ge 3584 bytes.length with h | h
  · rw [loadRom_of_gt s h]
    exact SameOutside.refl _ s
  · rw [loadRom_of_le s h]
    exact sameOutside_writeBytes s 0x200 bytes

theorem sameOutside_hostReset (s : State) : SameOutside (fun p => p ≠ .params ∧ p ≠ .draws) s (hostReset s) := by
  intro p hp
  cases p with
  | params | draws => rfl
  | _ => exact absurd (by simp) hp

theorem sameOutside_stateAfterStep (s : State) :
    SameOutside (fun p => p ≠ .params ∧ ∀ k, p ≠ .key k) s (stateAfterStep s) := by
  rw [stateAfterStep]
  cases h : step s with
  | next t =>
    intro p hp
    cases p with
    | params => exact step_params h
    | key k => exact step_keyPressed h k
    | _ => exact absurd (by simp) hp
  | fault | refused => exact SameOutside.refl _ s

/-- Settles O25: each operation's frame; for STEP, the keys and the parameters. -/
theorem hostOperationsWriteOnlyTheirs : Obligations.HostOperationsWriteOnlyTheirs := by
  intro op s
  cases op with
  | reset => exact sameOutside_hostReset s
  | loadRom bytes => exact sameOutside_loadRom s bytes
  | step => exact sameOutside_stateAfterStep s
  | tick => exact sameOutside_tick s
  | setKey k pressed => exact sameOutside_setKey s k pressed
  | displayRead => exact SameOutside.refl _ s

end Sys2Proof.Machine
end

section
/-! PROOFS. The display and the sound timer are invisible to the program (44_display.md R153, 10_state.md R30, R34):
every instruction but DRW does the same on a state with another display and another sound timer. -/

namespace Sys2Proof.Machine

/-- The state with another display and another sound timer. -/
def State.withScreen (s : State) (d : Display) (b : Byte) : State := { s with px := d, st := b }

section
variable (s : State) (d : Display) (b : Byte)

theorem State.withScreen_setFlagAndResult (x : Nibble) (flag result : Byte) :
    (s.withScreen d b).setFlagAndResult x flag result = (s.setFlagAndResult x flag result).withScreen d b := by
  unfold State.setFlagAndResult
  cases h : s.params.vfWriteOrder <;> simp only [State.withScreen, h] <;> rfl

theorem State.withScreen_skipIf (c : Bool) : (s.withScreen d b).skipIf c = (s.skipIf c).withScreen d b := by
  cases c <;> rfl

theorem State.withScreen_writeBytes (a : Nat) (bs : List Byte) :
    (s.withScreen d b).writeBytes a bs = (s.writeBytes a bs).withScreen d b := by
  induction bs generalizing s a with
  | nil => rfl
  | cons c bs ih => exact ih (s.writeByte a c) (a + 1)

theorem State.withScreen_readBytes (a n : Nat) : (s.withScreen d b).readBytes a n = s.readBytes a n := by
  induction n generalizing a with
  | zero => rfl
  | succ n ih => exact congrArg (s.readByte a :: ·) (ih (a + 1))

theorem State.withScreen_drawing (x y n : Nibble) : (s.withScreen s.px b).drawing x y n = s.drawing x y n := by
  rw [State.drawing, State.withScreen_readBytes]
  rfl

end

theorem Raises.withScreen {s : State} {i : Instr} {kind : ErrorKind} (h : Raises s i kind) (d : Display) (b : Byte) :
    Raises (s.withScreen d b) i kind := by
  cases h <;> constructor <;> assumption

theorem Quiet.withScreen {s : State} {i : Instr} (h : Quiet i s) (d : Display) (b : Byte) : Quiet i (s.withScreen d b) :=
  fun kind hr => h kind (hr.withScreen s.px s.st)

/-- The instruction does on `s.withScreen d b` what it does from `s` to `t`, up to the display and the sound timer, and
each of the two ends as in `t` if it began as in `s`. -/
def ScreenBlind (i : Instr) (s t : State) (d : Display) (b : Byte) : Prop :=
  ∃ d' b', exec i (s.withScreen d b) = .next (t.withScreen d' b') ∧ (d = s.px → d' = t.px) ∧ (b = s.st → b' = t.st)

/-- An instruction that leaves both alone. -/
theorem screenBlind_of_keeps {i : Instr} {s t : State} {d : Display} {b : Byte}
    (h : exec i (s.withScreen d b) = .next (t.withScreen d b)) (hpx : t.px = s.px) (hst : t.st = s.st) :
    ScreenBlind i s t d b := ⟨d, b, h, hpx ▸ id, hst ▸ id⟩

/-- Every instruction, but for DRW on another display. -/
theorem screenBlind {i : Instr} {s t : State} {d : Display} (b : Byte)
    (hdrw : (∀ x y n, i ≠ .drwVxVyN x y n) ∨ d = s.px) (h : exec i s = .next t) : ScreenBlind i s t d b := by
  rcases raises_or_quiet i s with ⟨kind, hr⟩ | hq
  · cases h.symm.trans (exec_of_raises hr)
    exact screenBlind_of_keeps (exec_of_raises (hr.withScreen d b)) rfl rfl
  have hq' := hq.withScreen d b
  cases i with
  | cls =>
    cases h
    exact ⟨blankDisplay, b, rfl, fun _ => rfl, id⟩
  | ldStVx x =>
    cases h
    exact ⟨d, s.getV x, rfl, id, fun _ => rfl⟩
  | drwVxVyN x y n =>
    obtain rfl : d = s.px := hdrw.resolve_left fun hne => hne x y n rfl
    have ht' := exec_drwVxVyN_of_quiet hq'
    rw [State.withScreen_drawing] at ht'
    cases h.symm.trans (exec_drwVxVyN_of_quiet hq)
    exact ⟨_, b, ht', fun _ => rfl, id⟩
  | addVxVy | subVxVy | subnVxVy | shrVx | shlVx =>
    cases h
    refine screenBlind_of_keeps (congrArg _ (State.withScreen_setFlagAndResult s d b _ _ _)) ?_ ?_ <;>
      rw [State.setFlagAndResult_eq]
  | seVxNn | sneVxNn | seVxVy | sneVxVy =>
    cases h
    exact screenBlind_of_keeps (congrArg _ (State.withScreen_skipIf s d b _)) (State.skipIf_px s _) (State.skipIf_st s _)
  | skpVx =>
    obtain ⟨k, hk, ht⟩ := exec_skpVx_of_quiet hq
    cases h.symm.trans ht
    exact screenBlind_of_keeps ((exec_skpVx_of_keyIndex (s := s.withScreen d b) hk).trans
      (congrArg _ (State.withScreen_skipIf s d b _))) (State.skipIf_px s _) (State.skipIf_st s _)
  | sknpVx =>
    obtain ⟨k, hk, ht⟩ := exec_sknpVx_of_quiet hq
    cases h.symm.trans ht
    exact screenBlind_of_keeps ((exec_sknpVx_of_keyIndex (s := s.withScreen d b) hk).trans
      (congrArg _ (State.withScreen_skipIf s d b _))) (State.skipIf_px s _) (State.skipIf_st s _)
  | ret =>
    obtain ⟨_, ht⟩ := exec_ret_of_quiet hq
    obtain ⟨_, ht'⟩ := exec_ret_of_quiet hq'
    cases h.symm.trans ht
    exact screenBlind_of_keeps ht' rfl rfl
  | callAddr =>
    obtain ⟨_, _, ht⟩ := exec_callAddr_of_quiet hq
    obtain ⟨_, _, ht'⟩ := exec_callAddr_of_quiet hq'
    cases h.symm.trans ht
    exact screenBlind_of_keeps ht' rfl rfl
  | ldBVx =>
    cases h.symm.trans (exec_ldBVx_of_quiet hq).2
    refine screenBlind_of_keeps ((exec_ldBVx_of_quiet hq').2.trans
      (congrArg _ (State.withScreen_writeBytes s d b _ _))) ?_ ?_ <;> rw [State.writeBytes_eq]
  | ldMemVx =>
    cases h.symm.trans (exec_ldMemVx_of_quiet hq).2
    refine screenBlind_of_keeps ((exec_ldMemVx_of_quiet hq').2.trans
      (congrArg _ (State.withScreen_writeBytes s d b _ _))) ?_ ?_ <;> rw [State.writeBytes_eq]
  | ldVxMem =>
    cases h.symm.trans (exec_ldVxMem_of_quiet hq)
    exact screenBlind_of_keeps (exec_ldVxMem_of_quiet hq') rfl rfl
  | _ =>
    cases h
    exact screenBlind_of_keeps rfl rfl rfl

/-- Settles O26: each half is `screenBlind` with the other piece, the sound timer or the display, as it was. -/
theorem displayAndSoundTimerAreInvisible : Obligations.DisplayAndSoundTimerAreInvisible := by
  refine ⟨fun i s t d hne h => ?_, fun i s t b h => ?_⟩
  · obtain ⟨d', b', ht', -, hb⟩ := screenBlind (d := d) s.st (.inl hne) h
    refine ⟨_, ht', ?_⟩
    rw [State.withScreen, hb rfl]
  · obtain ⟨d', b', ht', hd, -⟩ := screenBlind b (.inr rfl) h
    refine ⟨_, ht', ?_⟩
    rw [State.withScreen, hd rfl]

end Sys2Proof.Machine
end

section
/-! PROOFS. The phases of a STEP (40_step_cycle.md R90 to R97): the latched error, the key wait, the fetch and what
follows it. -/

namespace Sys2Proof.Machine

/-! ## The fetched word -/

theorem State.wordAtPc_eq (s : State) : s.wordAtPc =
    BitVec.ofNat 16 ((s.readByte s.pc.toNat).toNat * 256 + (s.readByte (s.pc.toNat + 1)).toNat) := wordOfBytes_eq _ _

/-- A STEP that decodes an instruction is that instruction on the post-fetch state. -/
theorem step_of_decodeWord {s : State} {i : Instr} (hs : s.Fetches) (hd : decodeWord s.wordAtPc = .ok i) :
    step s = exec i s.advancePc := by
  obtain ⟨hf, hw, hpc⟩ := hs
  rw [step_fetches hf hw hpc, runWord, hd]

/-- Settles O7: the word at `pc` is its two bytes, high byte first. -/
theorem stepRunsDecodedInstruction : Obligations.StepRunsDecodedInstruction := by
  intro s i hs hd
  rw [← State.wordAtPc_eq] at hd
  exact step_of_decodeWord hs hd

theorem stepResult_of_latches {s t : State} {kind : ErrorKind} (h : step s = .next t) (hk : t.fault = some kind) :
    stepResult s = some (.error kind t.faultWord) := by
  rw [stepResult, h]
  simp only [hk]

/-- Settles O8: the fetch finds nothing, and the error raised is the STEP's result. -/
theorem fetchBeyondMemoryLatches : Obligations.FetchBeyondMemoryLatches := by
  intro s hf hw hpc
  have h := step_of_pc_gt hf hw hpc
  exact ⟨h, stepResult_of_latches h rfl⟩

theorem decodeWord_of_not_wellFormed {w : Word} (h : wordWellFormed w = false) :
    decodeWord w = .error (.unimplementedOpcode w) := (decoderFollowsOpcodeTable w).2 h

theorem step_of_not_wellFormed {s : State} (hs : s.Fetches) (hwf : wordWellFormed s.wordAtPc = false) :
    step s = .next (raiseError .unimplementedOpcode s.wordAtPc s.advancePc) := by
  obtain ⟨hf, hw, hpc⟩ := hs
  rw [step_fetches hf hw hpc, runWord, decodeWord_of_not_wellFormed hwf]

theorem unimplementedWord_of_not_wellFormed {s : State} (hs : s.Fetches) (hwf : wordWellFormed s.wordAtPc = false) :
    unimplementedWord s = some s.wordAtPc := by
  obtain ⟨-, hw, hpc⟩ := hs
  simp [unimplementedWord, hw, fetch_of_le hpc, decodeWord_of_not_wellFormed hwf]

/-- The result of the STEP whether or not the policy latches the error. -/
theorem stepResult_of_not_wellFormed {s : State} (hs : s.Fetches) (hwf : wordWellFormed s.wordAtPc = false) :
    stepResult s = some (.error .unimplementedOpcode s.wordAtPc) := by
  have h := step_of_not_wellFormed hs hwf
  by_cases hp : s.params.unimplPolicy = .halt
  · rw [raiseError_of_halt _ hp] at h
    exact stepResult_of_latches h rfl
  · rw [raiseError_of_not_halt _ hp] at h
    have hf : s.advancePc.fault = none := hs.1
    rw [stepResult, h]
    simp only [hf, unimplementedWord_of_not_wellFormed hs hwf]

/-- Settles O9: a word of no row does not decode; the policy decides between the two values of `raiseError`. -/
theorem unimplementedWordIsReported : Obligations.UnimplementedWordIsReported := by
  intro s w hs hword hwf
  rw [← State.wordAtPc_eq] at hword
  subst hword
  have h := step_of_not_wellFormed hs hwf
  refine ⟨stepResult_of_not_wellFormed hs hwf, fun hp => ?_, fun hp => ?_⟩
  · rw [h, raiseError_of_halt _ hp]
  · rw [h, raiseError_of_not_halt _ (by rw [hp]; decide)]
    rfl

/-! ## The latched error -/

theorem step_of_fault {s : State} {kind : ErrorKind} (h : s.fault = some kind) :
    step s = .fault (.halted kind s.faultWord) := by
  rw [step, cycle, h]

/-- Settles O10: `step` looks at the latch first. -/
theorem haltIsSticky : Obligations.HaltIsSticky := by
  intro s kind h
  have hstep := step_of_fault h
  have hafter : stateAfterStep s = s := by rw [stateAfterStep, hstep]
  exact ⟨hstep, by rw [stepResult, hstep], hafter⟩

/-! ## The key wait -/

theorem step_of_no_press {s : State} (hf : s.fault = none) (hw : s.waiting = true) (hk : s.keyEvent = none) :
    step s = .next s := by
  rw [step_waiting hf hw, State.keyWaitStep_none hk]

/-- The STEP that completes a key wait. -/
theorem step_of_press {s : State} {k : Nibble} (hf : s.fault = none) (hw : s.waiting = true) (hk : s.keyEvent = some k) :
    ∃ t, step s = .next t ∧ (t.getV s.waitX).toNat = k.toNat ∧ t.pc = s.pc + 2 ∧ t.waiting = false ∧
      t.keyEvent = none ∧ SameOutside (fun p => p = .v s.waitX ∨ p = .pc ∨ p = .waiting ∨ p = .keyEvent) s t := by
  have hframe := sameOutside_keyWaitStep s
  rw [State.keyWaitStep_some hk] at hframe
  refine ⟨_, by rw [step_waiting hf hw, State.keyWaitStep_some hk], ?_, rfl, rfl, rfl, hframe⟩
  have hv : (s.setV s.waitX (k.setWidth 8)).getV s.waitX = k.setWidth 8 := State.getV_setV_self s _ _
  exact (congrArg BitVec.toNat hv).trans (BitVec.toNat_setWidth_of_le (by decide))

/-- Settles O11: `step` looks at the key wait before it fetches. -/
theorem keyWaitPollsThenCompletes : Obligations.KeyWaitPollsThenCompletes :=
  fun _ hf hw => ⟨step_of_no_press hf hw, fun _ => step_of_press hf hw⟩

/-- Settles O55: `State.beginKeyWait` is the whole effect. -/
theorem keyWaitBegins : Obligations.KeyWaitBegins :=
  fun x s => ⟨s.beginKeyWait x, exec_ldVxK x s, rfl, rfl, rfl, rfl, sameOutside_beginKeyWait s x⟩

theorem recordPress_of_first_press {s : State} {k : Nibble} (hw : s.waiting = true) (hk : s.keyEvent = none)
    (hp : s.keyPressed k = false) : recordPress s k true = some k := by
  simp [recordPress, hw, hk, hp]

theorem recordPress_of_not_first_press {s : State} {k : Nibble} {pressed : Bool}
    (h : ¬ (s.waiting = true ∧ s.keyEvent = none ∧ pressed = true ∧ s.keyPressed k = false)) :
    recordPress s k pressed = s.keyEvent := by
  rw [recordPress, if_neg]
  simpa [and_assoc] using h

/-- Settles O58: the cell is set whatever the event, and the event changes under `recordPress`'s condition alone. -/
theorem setKeySetsCellAndRecordsFirstPress : Obligations.SetKeySetsCellAndRecordsFirstPress := by
  intro k pressed s
  refine ⟨?cell, ?records, recordPress_of_not_first_press, sameOutside_setKey s k pressed⟩
  case cell => exact (State.keyPressed_setKey s k k pressed).trans (if_pos rfl)
  case records =>
    rintro hw hk rfl hp
    exact recordPress_of_first_press hw hk hp

/-- Settles O56: LD Vx,K begins the wait at its own address; a STEP polls until SET_KEY records a press, and a held key
is none. -/
theorem keyWaitCompletesOnPress : Obligations.KeyWaitCompletesOnPress := by
  intro s x k hs hd
  have hf : s.fault = none := hs.1
  have hstep : step s = .next (s.advancePc.beginKeyWait x) := step_of_decodeWord hs hd
  have hpc : (s.advancePc.beginKeyWait x).pc = s.pc := by simp
  refine ⟨s.advancePc.beginKeyWait x, hstep, hpc, step_of_no_press hf rfl rfl, fun hheld => ?_, fun hfree => ?_⟩
  · refine step_of_no_press hf rfl (recordPress_of_not_first_press ?_)
    rintro ⟨-, -, -, hfree⟩
    exact Bool.false_ne_true (hfree.symm.trans hheld)
  · obtain ⟨u, hu, hv, hupc, huw, huk, -⟩ :=
      step_of_press (s := setKey k true (s.advancePc.beginKeyWait x)) hf rfl (recordPress_of_first_press rfl rfl hfree)
    exact ⟨u, hu, hv, hupc.trans (congrArg (· + 2) hpc), huw, huk⟩

/-! ## Jumps and stores seen by the fetch -/

/-- Settles O29: the jump's target is the post-fetch state's old `pc`, so the fetch's advance is undone. -/
theorem selfJumpIsAFixedPoint : Obligations.SelfJumpIsAFixedPoint := by
  intro s nnn hs hd hpc
  have haddr : addrImm nnn = s.pc := BitVec.eq_of_toNat_eq ((toNat_addrImm nnn).trans hpc.symm)
  rw [step_of_decodeWord hs hd, exec_jpAddr, haddr]
  rfl

theorem wordAtPc_placeWord {s : State} (hmem : s.MemInv) (hpc : s.pc.toNat ≤ 4094) (w : Word) :
    (s.placeWord w).wordAtPc = w := by
  have hpc' : (s.placeWord w).pc = s.pc := by rw [State.placeWord, State.writeBytes_eq]
  have hread := State.readByte_writeBytes hmem (a := s.pc.toNat) [highByte w, lowByte w] (.inr (by simp [memSize]; omega))
  rw [State.wordAtPc, hpc', State.placeWord, hread, hread]
  simpa using wordOfBytes_highByte_lowByte w

/-- Settles O13: the stored word reads back as itself, and it is the encoding of `i`, so it decodes to `i`. -/
theorem storedWordIsFetchedNext : Obligations.StoredWordIsFetchedNext := by
  intro s i hmem hs
  have hplaced : s.placeWord (encode i) = { s with mem := (s.placeWord (encode i)).mem } := State.writeBytes_eq _ _ _
  have hpc : (s.placeWord (encode i)).pc = s.pc := by rw [hplaced]
  have hfetches : (s.placeWord (encode i)).Fetches := by rw [hplaced]; exact hs
  have hd : decodeWord (s.placeWord (encode i)).wordAtPc = .ok i := by
    rw [wordAtPc_placeWord hmem hs.2.2]
    exact decodeInvertsEncode i
  have hstep := step_of_decodeWord hfetches hd
  rw [State.advancePc, hpc] at hstep
  exact hstep

end Sys2Proof.Machine
end

section
/-! PROOFS. The jumps, CALL and RET (41_control.md R101 to R103, R108). -/

namespace Sys2Proof.Machine

/-- An instruction that is a jump sets `pc` and keeps everything else. -/
theorem jumps_of_exec_eq {i : Instr} {s : State} {w : Word} {n : Nat} (h : exec i s = .next (s.setPc w))
    (hw : w.toNat = n) : ∃ t, exec i s = .next t ∧ t.pc.toNat = n ∧ SameOutside (fun p => p = .pc) s t :=
  ⟨_, h, hw, sameOutside_setPc s w⟩

/-- Settles O28: JP addr is a jump to its immediate. -/
theorem jpSetsPc : Obligations.JpSetsPc :=
  fun nnn s => ⟨rfl, jumps_of_exec_eq (exec_jpAddr nnn s) (toNat_addrImm nnn)⟩

/-- Settles O30: JP V0+addr is a jump to the sum, which does not wrap: it is at most 255 + 4095. -/
theorem jpV0AddsRegisterZero : Obligations.JpV0AddsRegisterZero := by
  intro nnn s
  refine ⟨rfl, jumps_of_exec_eq (exec_jpV0Addr nnn s) ?_⟩
  rw [BitVec.toNat_add, toNat_wordOfByte, toNat_addrImm]
  omega

/-- Settles O31: with a slot free the push succeeds; with none free it is the error of `Raises.callAddr`. -/
theorem callPushesOrOverflows : Obligations.CallPushesOrOverflows := by
  intro nnn s
  refine ⟨fun h => ?_, fun h => exec_of_raises (.callAddr nnn h)⟩
  exact ⟨_, exec_callAddr_of_lt nnn h, Vector.getElem_set_self h, rfl, toNat_addrImm nnn, sameOutside_call s h _ _⟩

/-- Settles O32: with a slot used the pop succeeds; with none used it is the error of `Raises.ret`. -/
theorem retPopsOrUnderflows : Obligations.RetPopsOrUnderflows :=
  fun s => ⟨fun h => ⟨_, exec_ret_of_pos h, rfl, rfl, sameOutside_ret s _ _⟩, fun h => exec_of_raises (.ret h)⟩

/-- Settles O33: the RET reads the slot the CALL wrote, whatever `pc` is in between. -/
theorem callThenRetRoundTrips : Obligations.CallThenRetRoundTrips := by
  intro nnn s t u w hlt hcall hret
  cases hcall.symm.trans (exec_callAddr_of_lt nnn hlt)
  cases hret.symm.trans (exec_ret_of_pos (Nat.succ_pos s.sp.val))
  exact ⟨Vector.getElem_set_self hlt, rfl⟩

end Sys2Proof.Machine
end

section
/-! PROOFS. The arithmetic and shift instructions that write a flag, and RND (42_load_alu.md R126 to R133). Each of the
former is one `State.setFlagAndResult`, so what it leaves in `V[x]` and `V[15]` is stated once for each kind of
destination. -/

namespace Sys2Proof.Machine

section
variable {s : State} {x : Nibble} {flag result : Byte}

/-- A flag-writing instruction with a destination other than `V[15]` puts both values, in either order of its writes. -/
theorem setFlagAndResult_of_ne (hx : x ≠ 15) :
    (s.setFlagAndResult x flag result).getV x = result ∧ (s.setFlagAndResult x flag result).getV 15 = flag := by
  have hx' : (15 : Nibble) ≠ x := Ne.symm hx
  rw [State.getV_setFlagAndResult, State.getV_setFlagAndResult]
  cases s.params.vfWriteOrder
  · exact ⟨if_pos rfl, (if_neg hx').trans (if_pos rfl)⟩
  · exact ⟨(if_neg hx).trans (if_pos rfl), if_pos rfl⟩

/-- The same of an instruction that is such a write, with its frame. -/
theorem writesFlagAndResult_of_exec_eq {i : Instr} {n m : Nat} (hx : x ≠ 15)
    (h : exec i s = .next (s.setFlagAndResult x flag result)) (hresult : result.toNat = n) (hflag : flag.toNat = m) :
    ∃ t, exec i s = .next t ∧ (t.getV x).toNat = n ∧ (t.getV 15).toNat = m ∧
      SameOutside (fun p => p = .v x ∨ p = .v 15) s t := by
  obtain ⟨hv, hf⟩ := setFlagAndResult_of_ne (s := s) (flag := flag) (result := result) hx
  exact ⟨_, h, by rw [hv, hresult], by rw [hf, hflag], sameOutside_setFlagAndResult s x flag result⟩

end

theorem toNat_carryFlag (a b : Byte) : (carryFlag a b).toNat = if a.toNat + b.toNat ≥ 256 then 1 else 0 := by
  simp [carryFlag, toNat_flagByte]

theorem toNat_noBorrowFlag (a b : Byte) : (noBorrowFlag a b).toNat = if a.toNat ≥ b.toNat then 1 else 0 := by
  simp [noBorrowFlag, toNat_flagByte]

theorem intCast_noBorrowFlag (a b : Byte) : ((noBorrowFlag a b).toNat : Int) = if a.toNat ≥ b.toNat then 1 else 0 := by
  rw [toNat_noBorrowFlag, Nat.cast_ite, Nat.cast_one, Nat.cast_zero]

theorem toNat_sub_eq_emod (a b : Byte) : ((a - b).toNat : Int) = (a.toNat - b.toNat : Int) % 256 := by
  rw [BitVec.toNat_sub]
  omega

theorem toNat_shiftRight_one (a : Byte) : (a >>> 1).toNat = a.toNat / 2 := by
  simp [Nat.shiftRight_eq_div_pow]

theorem toNat_shiftLeft_one (a : Byte) : (a <<< 1).toNat = a.toNat * 2 % 256 := by
  simp [Nat.shiftLeft_eq]

/-- Settles O37: ADD is a flag write with the carry as its flag. -/
theorem addSetsSumAndCarry : Obligations.AddSetsSumAndCarry :=
  fun x y s hx => writesFlagAndResult_of_exec_eq hx (exec_addVxVy x y s) (BitVec.toNat_add _ _) (toNat_carryFlag _ _)

/-- Settles O38: SUB and SUBN are flag writes with the operands in either order. -/
theorem subtractionsSetDifferenceAndNoBorrow : Obligations.SubtractionsSetDifferenceAndNoBorrow := by
  intro x y s hx
  refine ⟨?sub, ?subn⟩
  case sub =>
    obtain ⟨t, ht, hv, hf, hframe⟩ :=
      writesFlagAndResult_of_exec_eq hx (exec_subVxVy x y s) rfl (toNat_noBorrowFlag _ _)
    exact ⟨t, ht, hv ▸ toNat_sub_eq_emod _ _, hf, hframe⟩
  case subn =>
    obtain ⟨t, ht, hv, hf, hframe⟩ :=
      writesFlagAndResult_of_exec_eq hx (exec_subnVxVy x y s) rfl (toNat_noBorrowFlag _ _)
    exact ⟨t, ht, hv ▸ toNat_sub_eq_emod _ _, hf, hframe⟩

/-- Settles O39: SHR and SHL are flag writes of the bit shifted out, and `y` does not occur in their meaning. -/
theorem shiftsSetResultAndBitShiftedOut : Obligations.ShiftsSetResultAndBitShiftedOut := by
  intro x y s hx
  refine ⟨?shr, ?shl, fun _ => ⟨rfl, rfl⟩⟩
  case shr =>
    exact writesFlagAndResult_of_exec_eq hx (exec_shrVx x y s) (toNat_shiftRight_one _) (toNat_rightBitFlag _)
  case shl =>
    exact writesFlagAndResult_of_exec_eq hx (exec_shlVx x y s) (toNat_shiftLeft_one _) (toNat_leftBitFlag _)

/-- A flag-writing instruction with destination `V[15]` changes that register alone, and the parameter says which value
stays; the value is read as a number by `f`. -/
theorem writesV15_of_exec_eq {α : Type} (f : Byte → α) {i : Instr} {s : State} {flag result : Byte} {n m : α}
    (h : exec i s = .next (s.setFlagAndResult 15 flag result)) (hresult : f result = n) (hflag : f flag = m) :
    ∃ t, exec i s = .next t ∧ SameOutside (fun p => p = .v 15) s t ∧
      f (t.getV 15) = match s.params.vfWriteOrder with
        | .resultLast => n
        | .flagLast => m := by
  refine ⟨_, h, (sameOutside_setFlagAndResult s 15 flag result).mono fun _ hp => hp.elim id id, ?_⟩
  rw [State.getV_setFlagAndResult]
  cases s.params.vfWriteOrder
  · exact hresult
  · exact hflag

/-- Settles O40: both values are computed from the old registers, as O37 to O39 give them, and the order of the writes
says which one stays. -/
theorem flagRegisterAsDestination : Obligations.FlagRegisterAsDestination := by
  intro y s
  refine ⟨?add, ?sub, ?subn, ?shr, ?shl⟩
  case add =>
    exact writesV15_of_exec_eq BitVec.toNat (exec_addVxVy 15 y s) (BitVec.toNat_add _ _) (toNat_carryFlag _ _)
  case sub =>
    exact writesV15_of_exec_eq (fun b => (b.toNat : Int)) (exec_subVxVy 15 y s) (toNat_sub_eq_emod _ _)
      (intCast_noBorrowFlag _ _)
  case subn =>
    exact writesV15_of_exec_eq (fun b => (b.toNat : Int)) (exec_subnVxVy 15 y s) (toNat_sub_eq_emod _ _)
      (intCast_noBorrowFlag _ _)
  case shr =>
    exact writesV15_of_exec_eq BitVec.toNat (exec_shrVx 15 y s) (toNat_shiftRight_one _) (toNat_rightBitFlag _)
  case shl =>
    exact writesV15_of_exec_eq BitVec.toNat (exec_shlVx 15 y s) (toNat_shiftLeft_one _) (toNat_leftBitFlag _)

/-! ## The random byte -/

/-- Settles O41: RND is a draw and one register write of the masked byte. -/
theorem rndMasksAFreshFreeByte : Obligations.RndMasksAFreshFreeByte := by
  intro x nn s
  have hv : (s.draw.2.setV x (Config.draw8 s.draws &&& nn)).getV x = Config.draw8 s.draws &&& nn :=
    State.getV_setV_self _ _ _
  refine ⟨_, exec_rndVxNn x nn s, hv, rfl, fun k hk => ?_, sameOutside_rnd s x _⟩
  rw [hv, BitVec.getLsbD_and, hk, Bool.and_false]

end Sys2Proof.Machine
end

section
/-! PROOFS. LD B,Vx and the block transfers (43_index_memory.md R143 to R146, 20_memory.md R57). -/

namespace Sys2Proof.Machine

/-- The `k`-th byte of a wide store inside Memory. -/
theorem State.readByte_writeBytes_add {s : State} (hmem : s.MemInv) {a k : Nat} {bs : List Byte} {b : Byte}
    (ha : a + bs.length ≤ 4096) (hk : bs[k]? = some b) : (s.writeBytes a bs).readByte (a + k) = b := by
  rw [State.readByte_writeBytes hmem bs (.inr ha), if_pos (Nat.le_add_right a k), Nat.add_sub_cancel_left, hk]
  rfl

/-- Settles O43: the three digits are below 256, and byte `k` of a wide store reads back at `I + k`. -/
theorem bcdStoresThreeDigits : Obligations.BcdStoresThreeDigits := by
  intro x s hmem hle
  have hlt := (s.getV x).isLt
  have hin : s.i.toNat + (bcdDigits (s.getV x)).length ≤ 4096 := Nat.add_le_add_right hle 1
  have digit {k n : Nat} (hn : n < 256) (hk : (bcdDigits (s.getV x))[k]? = some (BitVec.ofNat 8 n)) :
      ((s.writeBytes s.i.toNat (bcdDigits (s.getV x))).readByte (s.i.toNat + k)).toNat = n := by
    rw [State.readByte_writeBytes_add hmem hin hk, BitVec.toNat_ofNat, Nat.mod_eq_of_lt hn]
  exact ⟨_, exec_ldBVx_of_le x hle, digit (k := 0) (by omega) rfl, digit (by omega) rfl, digit (by omega) rfl,
    sameOutside_writeBytes s _ (bcdDigits (s.getV x))⟩

theorem readByte_of_blockStore {s : State} {x k : Nibble} (hmem : s.MemInv) (hle : s.i.toNat + x.toNat ≤ 4095)
    (hk : k.toNat ≤ x.toNat) : (s.writeBytes s.i.toNat (s.blockRegs x)).readByte (s.i.toNat + k.toNat) = s.getV k := by
  apply State.readByte_writeBytes_add hmem
  · rw [State.length_blockRegs]; omega
  · rw [State.getElem?_blockRegs, if_pos hk]

/-- Settles O44: byte `k` of the block is `V[k]`. -/
theorem blockStoreStoresRegisters : Obligations.BlockStoreStoresRegisters := by
  intro x s hmem hle
  refine ⟨_, exec_ldMemVx_of_le hle, fun k hk => readByte_of_blockStore hmem hle hk,
    (sameOutside_writeBytes s _ _).mono ?_⟩
  rintro p ⟨k, hk, rfl⟩
  rw [State.length_blockRegs] at hk
  exact ⟨k, by omega, rfl⟩

/-- Settles O45: the range is in memory, so the block is loaded. -/
theorem blockLoadLoadsRegisters : Obligations.BlockLoadLoadsRegisters := by
  intro x s hle
  refine ⟨_, exec_ldVxMem_of_le hle, fun k hk => ?_, sameOutside_loadBlock s x _⟩
  rw [State.getV_loadBlock, if_pos hk]

/-- Settles O46: the load starts at the same `I`, where the bytes stored are, and keeps the registers above `V[x]`. -/
theorem blockStoreThenLoadRestores : Obligations.BlockStoreThenLoadRestores := by
  intro x k s t u regs hmem hle hstore hload
  cases hstore.symm.trans (exec_ldMemVx_of_le hle)
  have hi : (s.writeBytes s.i.toNat (s.blockRegs x)).i = s.i := by rw [State.writeBytes_eq]
  cases hload.symm.trans (exec_ldVxMem_of_le (by rwa [hi]))
  rw [State.getV_loadBlock, hi]
  by_cases hk : k.toNat ≤ x.toNat
  · rw [if_pos hk, if_pos hk]
    exact readByte_of_blockStore hmem hle hk
  · rw [if_neg hk, if_neg hk]
    rfl

/-- Settles O47: the four causes of MemoryOutOfBounds in `Raises`. -/
theorem accessBeyondMemoryLatches : Obligations.AccessBeyondMemoryLatches :=
  fun x y n _ => ⟨fun h => exec_of_raises (.ldBVx x h),
    fun h => ⟨exec_of_raises (.ldMemVx x h), exec_of_raises (.ldVxMem x h)⟩,
    fun hn h => exec_of_raises (.drwVxVyN x y n hn h)⟩

end Sys2Proof.Machine
end

section
/-! PROOFS. SKP and SKNP, the timer loads and TICK (45_keypad_timers.md R160 to R166, 60_exceptions.md R186, R187). -/

namespace Sys2Proof.Machine

/-- The key SKP and SKNP test, when `V[x]` is a key index or the policy masks it. -/
theorem keyIndex_of_index {p : Params} {b : Byte} {k : Nibble}
    (h : b.toNat = k.toNat ∨ (p.keyIndexPolicy = .mask4 ∧ b.toNat % 16 = k.toNat)) : keyIndex p b = some k := by
  have := k.isLt
  rw [keyIndex_eq_some_iff]
  cases hp : p.keyIndexPolicy <;> simp [hp] at h ⊢ <;> omega

/-- Settles O51: the index is found, so each of the two is a skip. -/
theorem keySkipsTestTheLatch : Obligations.KeySkipsTestTheLatch := by
  intro x k s h
  have hk := keyIndex_of_index h
  refine ⟨⟨_, exec_skpVx_of_keyIndex hk, State.skipIf_pc s _, sameOutside_skipIf s _⟩,
    ⟨_, exec_sknpVx_of_keyIndex hk, ?_, sameOutside_skipIf s _⟩⟩
  rw [State.skipIf_pc]
  cases s.keyPressed k <;> rfl

/-- Settles O52: the two causes of InvalidKeyIndex in `Raises`. -/
theorem keySkipsBeyondTheLatchFail : Obligations.KeySkipsBeyondTheLatchFail :=
  fun x _ hp hx => ⟨exec_of_raises (.skpVx x hp hx), exec_of_raises (.sknpVx x hp hx)⟩

/-- Settles O53: LD Vx,DT is a register write and LD DT,Vx a write of the delay timer. -/
theorem delayTimerLoads : Obligations.DelayTimerLoads :=
  fun x s => ⟨⟨rfl, rfl⟩, writesV_of_exec_eq (exec_ldVxDt x s), ⟨_, exec_ldDtVx x s, rfl, sameOutside_setDt s _⟩⟩

theorem toNat_st_ticks (n : Nat) (s : State) : (ticks n s).st.toNat = s.st.toNat - n := by
  induction n generalizing s with
  | zero => rfl
  | succ n ih =>
    rw [ticks, ih]
    show (countDown s.st).toNat - n = _
    rw [toNat_countDown]
    omega

theorem tick_sounds_iff (s : State) : (tick s).1 = true ↔ s.st.toNat = 1 := by
  rw [tick, decide_eq_true_iff, ← BitVec.toNat_inj]
  rfl

/-- Settles O54: after `n` TICKs the sound timer is `V[x] - n`, and the next TICK sounds exactly when that is 1. -/
theorem soundTimerSoundsOnceAtExpiry : Obligations.SoundTimerSoundsOnceAtExpiry := by
  intro x s
  refine ⟨_, exec_ldStVx x s, rfl, sameOutside_setSt s _, fun n => ?_⟩
  rw [tick_sounds_iff, toNat_st_ticks, State.setSt_st]
  omega

/-- Settles O57: both timers count down by the same rule. -/
theorem tickCountsDownAndReportsTone : Obligations.TickCountsDownAndReportsTone :=
  fun s => ⟨⟨toNat_countDown s.dt, toNat_countDown s.st⟩, tick_sounds_iff s, sameOutside_tick s⟩

end Sys2Proof.Machine
end

section
/-! PROOFS. DRW (44_display.md R151, R152): the pixels and the collision of one sprite, and of the same sprite drawn
twice. -/

namespace Sys2Proof.Machine

/-! ## The bits of a sprite -/

theorem spriteBit_eq (msb : Bool) (b : Byte) (k : Nat) : spriteBit msb b k = b.getLsbD (if msb then 7 - k else k) := by
  cases msb <;> rfl

/-- A sprite byte has a set bit exactly when it is not 0, from whichever end its bits are counted. -/
theorem exists_spriteBit_iff (msb : Bool) (b : Byte) : (∃ k < 8, spriteBit msb b k = true) ↔ b ≠ 0 := by
  constructor
  · rintro ⟨k, -, hk⟩ rfl
    rw [spriteBit_eq] at hk
    exact absurd hk (by simp)
  · intro hb
    obtain ⟨j, hj, hbit⟩ : ∃ j < 8, b.getLsbD j = true := by
      by_contra hnone
      push Not at hnone
      exact hb (BitVec.eq_of_getLsbD_eq fun j hj => by simpa using hnone j hj)
    cases msb with
    | false => exact ⟨j, hj, hbit⟩
    | true => exact ⟨7 - j, by omega, by rwa [spriteBit_eq, if_pos rfl, Nat.sub_sub_self (by omega)]⟩

/-- Bit `k` of the sprite byte `r` that `I` points at. -/
def State.spriteSets (s : State) (r k : Nat) : Bool :=
  spriteBit s.params.spriteMsbLeft (s.readByte (s.i.toNat + r)) k

theorem State.spriteSets_eq (s : State) (r k : Nat) : s.spriteSets r k =
    (s.readByte (s.i.toNat + r)).getLsbD (if s.params.spriteMsbLeft then 7 - k else k) := spriteBit_eq _ _ _

/-! ## One sprite -/

theorem State.pixel_drawing (s : State) (x y : Nibble) {n : Nibble} {r k : Nat} (hr : r < n.toNat) (hk : k < 8) :
    (s.drawing x y n).px.pixel (wrapRow (spriteRow (s.getV y)) r) (wrapCol (spriteCol (s.getV x)) k) =
      (s.px.pixel (wrapRow (spriteRow (s.getV y)) r) (wrapCol (spriteCol (s.getV x)) k) ^^ s.spriteSets r k) := by
  have hn := n.isLt
  have hlen : (s.readBytes s.dataAddr n.toNat).length = n.toNat := State.length_readBytes s _ _
  refine (Drawing.pixel_plotSprite _ _ _ _ 0 _ r k ?_ (Nat.zero_le r) ?_ hk).trans ?_
  · omega
  · rwa [hlen]
  · rw [State.getElem_readBytes]
    rfl

theorem State.hit_drawing_iff (s : State) (x y n : Nibble) :
    (s.drawing x y n).hit = true ↔ ∃ r k, r < n.toNat ∧ k < 8 ∧ s.spriteSets r k = true ∧
      s.px.pixel (wrapRow (spriteRow (s.getV y)) r) (wrapCol (spriteCol (s.getV x)) k) = true := by
  have hn := n.isLt
  have hlen : (s.readBytes s.dataAddr n.toNat).length = n.toNat := State.length_readBytes s _ _
  rw [State.drawing, drawSprite, Drawing.hit_plotSprite _ _ _ _ _ _ (by omega)]
  simp only [State.getElem_readBytes, hlen, Bool.false_eq_true, false_or, Nat.zero_add, exists_prop]
  rfl

/-- The state after a DRW that reads its sprite inside Memory. -/
def State.afterDrw (s : State) (x y n : Nibble) : State :=
  State.setV { s with px := (s.drawing x y n).px } vf (flagByte (s.drawing x y n).hit)

theorem State.getV_15_afterDrw (s : State) (x y n : Nibble) :
    (s.afterDrw x y n).getV 15 = flagByte (s.drawing x y n).hit := State.getV_setV_self _ _ _

theorem State.getV_afterDrw_of_ne {s : State} {x y n z : Nibble} (h : z ≠ 15) : (s.afterDrw x y n).getV z = s.getV z :=
  (State.getV_setV _ _ _ _).trans (if_neg h)

theorem flagByte_eq_one_iff (c : Bool) : flagByte c = 1 ↔ c = true := by cases c <;> decide

theorem flagByte_eq_zero_iff (c : Bool) : flagByte c = 0 ↔ ¬ c = true := by cases c <;> decide

/-- Settles O49: the pixels and the collision are those of `State.pixel_drawing` and `State.hit_drawing_iff`; the
statement's `row`, `col` and `bit` are the model's `wrapRow`, `wrapCol` and `spriteBit` written out. -/
theorem drwTogglesSpritePixelsAndReportsCollision : Obligations.DrwTogglesSpritePixelsAndReportsCollision := by
  intro x y n s hle row col bit
  refine ⟨s.afterDrw x y n, exec_drwVxVyN_of_le x y hle, ?pixels, ?collision, ?noCollision,
    sameOutside_drawing s x y n _⟩
  case pixels =>
    intro r k hr hk
    rw [show bit r k = s.spriteSets r k from (s.spriteSets_eq r k).symm]
    exact State.pixel_drawing s x y hr hk
  case collision =>
    rintro ⟨r, k, hr, hk, hbit, hset⟩
    rw [State.getV_15_afterDrw, flagByte_eq_one_iff, State.hit_drawing_iff]
    exact ⟨r, k, hr, hk, (s.spriteSets_eq r k).trans hbit, hset⟩
  case noCollision =>
    intro hnone
    rw [State.getV_15_afterDrw, flagByte_eq_zero_iff, State.hit_drawing_iff]
    rintro ⟨r, k, hr, hk, hbit, hset⟩
    have hclear : s.px.pixel (row r) (col k) = false := hnone r k hr hk ((s.spriteSets_eq r k).symm.trans hbit)
    exact Bool.false_ne_true (hclear.symm.trans hset)

/-! ## The same sprite twice -/

section
variable {s : State} {x y n : Nibble} (hx : x ≠ 15) (hy : y ≠ 15)
include hx hy

/-- The second draw toggles the pixels the first one did. -/
theorem pixel_drawing_afterDrw {r k : Nat} (hr : r < n.toNat) (hk : k < 8) :
    ((s.afterDrw x y n).drawing x y n).px.pixel (wrapRow (spriteRow (s.getV y)) r) (wrapCol (spriteCol (s.getV x)) k) =
      ((s.drawing x y n).px.pixel (wrapRow (spriteRow (s.getV y)) r) (wrapCol (spriteCol (s.getV x)) k) ^^
        s.spriteSets r k) := by
  have h := (s.afterDrw x y n).pixel_drawing x y hr hk
  rwa [State.getV_afterDrw_of_ne hx, State.getV_afterDrw_of_ne hy] at h

theorem px_drawing_afterDrw : ((s.afterDrw x y n).drawing x y n).px = s.px := by
  apply Display.ext_pixel
  intro row col
  by_cases hon : ∃ r k, r < n.toNat ∧ k < 8 ∧
      row = wrapRow (spriteRow (s.getV y)) r ∧ col = wrapCol (spriteCol (s.getV x)) k
  · obtain ⟨r, k, hr, hk, rfl, rfl⟩ := hon
    rw [pixel_drawing_afterDrw hx hy hr hk, State.pixel_drawing s x y hr hk, Bool.xor_assoc, Bool.xor_self,
      Bool.xor_false]
  · have hoff : ∀ r k, r < n.toNat → k < 8 →
        ¬ (row = wrapRow (spriteRow (s.getV y)) r ∧ col = wrapCol (spriteCol (s.getV x)) k) :=
      fun r k hr hk h => hon ⟨r, k, hr, hk, h⟩
    have hsecond := (s.afterDrw x y n).pixel_drawing_of_off x y n (row := row) (col := col)
    rw [State.getV_afterDrw_of_ne hx, State.getV_afterDrw_of_ne hy] at hsecond
    exact (hsecond hoff).trans (s.pixel_drawing_of_off x y n hoff)

/-- On a blank display the first draw leaves its own bits, so the second collides where the sprite has a set bit. -/
theorem hit_drawing_afterDrw_of_blank (hblank : ∀ row col, s.px.pixel row col = false) :
    ((s.afterDrw x y n).drawing x y n).hit = true ↔ ∃ r, r < n.toNat ∧ s.readByte (s.i.toNat + r) ≠ 0 := by
  rw [State.hit_drawing_iff, State.getV_afterDrw_of_ne hx, State.getV_afterDrw_of_ne hy]
  constructor
  · rintro ⟨r, k, hr, hk, hbit, -⟩
    exact ⟨r, hr, (exists_spriteBit_iff _ _).mp ⟨k, hk, hbit⟩⟩
  · rintro ⟨r, hr, hne⟩
    obtain ⟨k, hk, hbit⟩ := (exists_spriteBit_iff s.params.spriteMsbLeft _).mpr hne
    refine ⟨r, k, hr, hk, hbit, (State.pixel_drawing s x y hr hk).trans ?_⟩
    rw [hblank, Bool.false_xor]
    exact hbit

end

/-- Settles O50: with coordinate registers that the first draw keeps, the second toggles the same pixels back, and on a
blank display it finds exactly the sprite's set bits set. -/
theorem drawingTwiceErases : Obligations.DrawingTwiceErases := by
  intro x y n s t u hx hy hle ht hu
  obtain rfl : s.afterDrw x y n = t := Host.Outcome.next.inj ((exec_drwVxVyN_of_le x y hle).symm.trans ht)
  obtain rfl : (s.afterDrw x y n).afterDrw x y n = u :=
    Host.Outcome.next.inj ((exec_drwVxVyN_of_le x y (s := s.afterDrw x y n) hle).symm.trans hu)
  refine ⟨px_drawing_afterDrw hx hy, fun hblank => ⟨?_, ?_⟩⟩
  · rw [State.getV_15_afterDrw, flagByte_eq_zero_iff, State.hit_drawing_iff]
    rintro ⟨r, k, -, -, -, hset⟩
    rw [hblank] at hset
    cases hset
  · rw [State.getV_15_afterDrw, flagByte_eq_one_iff, hit_drawing_afterDrw_of_blank hx hy hblank]

end Sys2Proof.Machine
end

section
/-! PROOFS. RESET, LOAD_ROM and DISPLAY_READ (70_reset_and_hazards.md R200, R203, 60_exceptions.md R191). -/

namespace Sys2Proof.Machine

/-- After RESET nothing is listed in memory. -/
theorem readByte_hostReset (s : State) (a : Nat) : (hostReset s).readByte a = Memory.resetByte s.params.font a := rfl

/-- Settles O19: no byte is listed after RESET, so memory reads as the font and zeros; the vectors are filled with one
value. -/
theorem resetLeavesResetValues : Obligations.ResetLeavesResetValues := by
  intro s
  refine ⟨fun a h => ?font, fun a h => ?zeros, fun x => ?registers, rfl, rfl, fun k => ?slots, rfl, ?pixels,
    fun k => ?keys, rfl, rfl, rfl, rfl, rfl, rfl, rfl, rfl, rfl⟩
  case font => exact (readByte_hostReset s a).trans (dif_pos h)
  case zeros => exact (readByte_hostReset s a).trans (dif_neg (Nat.not_lt.mpr h))
  case registers => exact Vector.getElem_replicate x.isLt
  case slots => exact Vector.getElem_replicate k.isLt
  case pixels => exact Display.pixel_blankDisplay
  case keys => exact Vector.getElem_replicate k.isLt

/-- Settles O59: the bytes fit, since 0x200 + 3584 is 4096, so LOAD_ROM is one wide store inside Memory. -/
theorem loadRomCopiesOrRefuses : Obligations.LoadRomCopiesOrRefuses := by
  intro bytes s hmem
  refine ⟨fun h => loadRom_of_gt s h, fun h => ⟨?_, fun k hk => ?_, sameOutside_loadRom s bytes⟩⟩
  · rw [loadRom_of_le s h]
  · rw [loadRom_of_le s h]
    exact State.readByte_writeBytes_add hmem (by omega) (List.getElem?_eq_getElem hk)

theorem displayRead_eq_flatten (s : State) : displayRead s = s.px.flatten.toList := by
  show _ = (s.px.toArray.map Vector.toArray).flatten.toList
  rw [Array.toList_flatten, Array.toList_map, List.map_map]
  rfl

/-- Settles O60: the values are the flattened rows, so the one at `row * 64 + col` is row `row`'s column `col`. -/
theorem displayReadIsRowMajor : Obligations.DisplayReadIsRowMajor := by
  intro s
  refine ⟨rfl, ?_, fun row col => ?_⟩
  · rw [displayRead_eq_flatten, Vector.length_toList]
  · have hdiv : (row.val * 64 + col.val) / 64 = row.val := by omega
    have hmod : (row.val * 64 + col.val) % 64 = col.val := by omega
    rw [displayRead_eq_flatten, Vector.getElem?_toList, Vector.getElem?_flatten, dif_pos (by omega)]
    simp only [hdiv, hmod, Display.pixel, Fin.getElem_fin]

end Sys2Proof.Machine
end
